-- ==== Sys2Proof/Word.lean ====
section
/-! DEFINITION. The widths the spec fixes (00_scope.md R6), under their names. -/

namespace Sys2Proof

/-- A 32-bit register cell or instruction word (R6, R24, R75). -/
abbrev Word := BitVec 32

/-- One byte of Memory, and one raw output character (R6, R50). -/
abbrev Byte := BitVec 8

/-- A register field of the instruction word, 0 to 31 (R76). -/
abbrev RegField := BitVec 5

/-- An opcode value, 0 to 31 (R76). -/
abbrev Opcode := BitVec 5

/-- The immediate field (R76). -/
abbrev Imm := BitVec 16

/-- A trap vector (R81). -/
abbrev TrapVec := BitVec 8

end Sys2Proof
end

