-- ==== Sys2Proof/Machine/Numeric.lean ====
section
/-! DEFINITION. Values and signedness: the functions of 00_scope.md R9 on 32-bit patterns. -/

namespace Sys2Proof.Machine

/-- `wrap32(n)`: the pattern congruent to `n` modulo 2^32 (R9). -/
def wrap32 (n : Int) : Word := BitVec.ofInt 32 n

/-- `signed(u)`: the two's-complement reading (R9). -/
def signed (u : Word) : Int := u.toInt

/-- `zext_32(v)`: the same number as a 32-bit pattern (R9). -/
def zext32 {w : Nat} (v : BitVec w) : Word := v.setWidth 32

/-- `sext_32(v)`: R9 defines it for completeness; no rule uses it (decision D3). -/
def sext32 {w : Nat} (v : BitVec w) : Word := v.signExtend 32

/-- `floor_div(a, b)` (R9). -/
def floorDiv (a b : Int) : Int := a.fdiv b

/-- `floor_mod(a, b) = a - floor_div(a, b)*b` (R9). -/
def floorMod (a b : Int) : Int := a - floorDiv a b * b

end Sys2Proof.Machine
end

