-- ==== Sys2Proof/Syntax.lean ====
section
/-! DEFINITION. Registers, mnemonics and the 25 instructions with the operand fields each one uses
(10_state.md R20; 30_encoding.md R78, R82). -/

namespace Sys2Proof

/-- The closed set of 20 register cells (R20). -/
inductive Reg where
  | gpr (i : Fin 16)   -- R0 to R15
  | pc
  | rem
  | cond
  | comp
  deriving DecidableEq, Repr

/-- The 25 mnemonics of the catalogue, in its order (R82). -/
inductive Mnemonic where
  | add | sub | mul | div
  | and | or | xor | not | shl | shr
  | cmpEq | cmpNeq | cmpGt | cmpLt
  | load | store | ldi | sti | lea
  | jmpAbs | jmpRel
  | input | output | trap | halt
  deriving DecidableEq, Repr

/-- An instruction with the fields it uses, under R78's names. A register field keeps its five bits,
because a value of 20 to 31 is a fault of the instruction that uses it and not of the decoder (R77, R85).
Fields an instruction does not use are not part of it (R85). -/
inductive Instr where
  | add (r1 r2 : RegField) (imm : Imm)
  | sub (r1 r2 : RegField) (imm : Imm)
  | mul (r1 r2 : RegField) (imm : Imm)
  | div (r1 r2 : RegField) (imm : Imm)
  | and (r1 r2 : RegField) (imm : Imm)
  | or (r1 r2 : RegField) (imm : Imm)
  | xor (r1 r2 : RegField) (imm : Imm)
  | not (r1 r2 : RegField)
  | shl (r1 r2 : RegField) (imm : Imm)
  | shr (r1 r2 : RegField) (imm : Imm)
  | cmpEq (r1 r2 : RegField)
  | cmpNeq (r1 r2 : RegField)
  | cmpGt (r1 r2 : RegField)
  | cmpLt (r1 r2 : RegField)
  | load (r1 : RegField) (imm : Imm)
  | store (r1 : RegField) (imm : Imm)
  | ldi (r1 : RegField) (imm : Imm)
  | sti (r1 : RegField) (imm : Imm)
  | lea (r1 : RegField) (imm : Imm)
  | jmpAbs (imm : Imm)
  | jmpRel (imm : Imm)
  | input (r1 : RegField)
  | output (r1 : RegField)
  | trap (vec : TrapVec)
  | halt
  deriving DecidableEq, Repr

end Sys2Proof
end

