-- ==== Sys2Proof/Config.lean ====
section
/-! DEFINITION. The parameters the spec leaves to the implementation (00_scope.md R7), as plain data,
and the constraints R7 puts on them. Their default values are in Machine/Defaults.lean. -/

namespace Sys2Proof

/-- The parameter `OPC`: one opcode value for each mnemonic (R7, R82). -/
structure OpcodeMap where
  add : Opcode
  sub : Opcode
  mul : Opcode
  div : Opcode
  and : Opcode
  or : Opcode
  xor : Opcode
  not : Opcode
  shl : Opcode
  shr : Opcode
  cmpEq : Opcode
  cmpNeq : Opcode
  cmpGt : Opcode
  cmpLt : Opcode
  load : Opcode
  store : Opcode
  ldi : Opcode
  sti : Opcode
  lea : Opcode
  jmpAbs : Opcode
  jmpRel : Opcode
  input : Opcode
  output : Opcode
  trap : Opcode
  halt : Opcode
  deriving DecidableEq, Repr

/-- `OPC(M)`. -/
def OpcodeMap.opcodeOf (m : OpcodeMap) : Mnemonic → Opcode
  | .add => m.add
  | .sub => m.sub
  | .mul => m.mul
  | .div => m.div
  | .and => m.and
  | .or => m.or
  | .xor => m.xor
  | .not => m.not
  | .shl => m.shl
  | .shr => m.shr
  | .cmpEq => m.cmpEq
  | .cmpNeq => m.cmpNeq
  | .cmpGt => m.cmpGt
  | .cmpLt => m.cmpLt
  | .load => m.load
  | .store => m.store
  | .ldi => m.ldi
  | .sti => m.sti
  | .lea => m.lea
  | .jmpAbs => m.jmpAbs
  | .jmpRel => m.jmpRel
  | .input => m.input
  | .output => m.output
  | .trap => m.trap
  | .halt => m.halt

/-- All mnemonics, in the catalogue's order (R82). -/
def Mnemonic.all : List Mnemonic :=
  [.add, .sub, .mul, .div] ++ [.and, .or, .xor, .not, .shl, .shr] ++
  [.cmpEq, .cmpNeq, .cmpGt, .cmpLt] ++ [.load, .store, .ldi, .sti, .lea] ++
  [.jmpAbs, .jmpRel] ++ [.input, .output, .trap, .halt]

/-- R7's constraint on `OPC`: injective, and 0x00 is no instruction. -/
abbrev OpcodeMap.wf (m : OpcodeMap) : Prop :=
  (Mnemonic.all.map m.opcodeOf).Nodup ∧ (0 : Opcode) ∉ Mnemonic.all.map m.opcodeOf

/-- The parameters of a run (R7, R46). -/
structure Config where
  /-- `MEM_SIZE`, the number of bytes of Memory. -/
  memSize : Nat
  /-- `OPC`. -/
  opc : OpcodeMap
  /-- `COND_P`. -/
  condP : BitVec 3
  /-- `COND_Z`. -/
  condZ : BitVec 3
  /-- `COND_N`. -/
  condN : BitVec 3
  /-- `TRAP_HALT_VEC`. -/
  trapHaltVec : TrapVec
  /-- `CHAR_IN_BITS`. -/
  charInBits : Nat
  deriving DecidableEq, Repr

/-- R7's constraints on the COND patterns: distinct and nonzero (that each is below 8 is their type). -/
abbrev Config.condWf (c : Config) : Prop :=
  c.condP ≠ 0 ∧ c.condZ ≠ 0 ∧ c.condN ≠ 0 ∧ c.condP ≠ c.condZ ∧ c.condP ≠ c.condN ∧ c.condZ ≠ c.condN

/-- The column "constraint" of R7's table, whole. -/
abbrev Config.wf (c : Config) : Prop :=
  (4 ≤ c.memSize ∧ c.memSize ≤ 2 ^ 32) ∧ c.opc.wf ∧ c.condWf ∧
  (c.trapHaltVec ≠ 0x20 ∧ c.trapHaltVec ≠ 0x21) ∧ (1 ≤ c.charInBits ∧ c.charInBits ≤ 32)

end Sys2Proof
end

