-- ==== Sys2Proof/Machine/Defaults.lean ====
section
/-! DEFINITION. The default values of the parameters: the column "default" of 00_scope.md R7's table.
They are the spec's own (92_eei_decisions.md D1, D6, D7, D11, D21); log entry 10. -/

namespace Sys2Proof

/-- R82's table: catalogue order from 0x01. -/
def OpcodeMap.specDefault : OpcodeMap :=
  { add := 0x01, sub := 0x02, mul := 0x03, div := 0x04,
    and := 0x05, or := 0x06, xor := 0x07, not := 0x08, shl := 0x09, shr := 0x0A,
    cmpEq := 0x0B, cmpNeq := 0x0C, cmpGt := 0x0D, cmpLt := 0x0E,
    load := 0x0F, store := 0x10, ldi := 0x11, sti := 0x12, lea := 0x13,
    jmpAbs := 0x14, jmpRel := 0x15,
    input := 0x16, output := 0x17, trap := 0x18, halt := 0x19 }

/-- The default parameters of a run (R7). PRESUMED: COND 1, 2, 4 and halt vector 0x25 come from LC-3
(93_implementation_defined.md G1, G2). UNVERIFIED: the opcode numbers (D1). -/
def Config.specDefault : Config :=
  { memSize := 262144, opc := OpcodeMap.specDefault,
    condP := 1, condZ := 2, condN := 4, trapHaltVec := 0x25, charInBits := 8 }

end Sys2Proof
end

