-- ==== Sys2Proof/Machine/State.lean ====
section
/-! DEFINITION. The machine's state as plain data, why a step can stop, and the state after reset
(10_state.md; 70_reset_and_hazards.md). -/

namespace Sys2Proof.Machine

/-- Memory as a list of (address, byte) in one canonical form, `Memory.wf` below. -/
abbrev Memory := List Host.Cell

/-- What an unlisted address reads as. DESIGN CHOICE, unsafe: the spec gives Memory no reset contents
(R51, R201, D14). Every launch image is still a state: a list can hold any byte at any address. Log entry 1. -/
def Memory.fill : Byte := 0

/-- The canonical form: addresses strictly rising, and no entry equal to what an unlisted address reads as. -/
abbrev Memory.wf (m : Memory) : Prop :=
  m.Pairwise (fun p q => p.1 < q.1) ∧ ∀ c ∈ m, c.2 ≠ Memory.fill

/-- The fault kinds and the information each reports (60_exceptions.md R172). -/
inductive Diag where
  | outOfBounds (addr : Nat)
  | divideByZero
  | unknownOpcode (opc : Opcode)
  | unknownTrapVector (vec : TrapVec)
  | malformedInput
  | invalidRegister (index : RegField)
  deriving DecidableEq, Repr

/-- An event at the output port (10_state.md R42). -/
inductive Event where
  | outInt (index : RegField) (value : Word)
  | outChar (c : Byte)
  | diag (d : Diag)
  deriving DecidableEq, Repr

/-- An answer of the integer input port (10_state.md R43). -/
inductive IntAnswer where
  | value (v : Word)
  | malformed
  deriving DecidableEq, Repr

/-- The state of the core and, at its boundary, what the collaborators have still to answer and have
already been given. -/
structure State where
  /-- The parameters of the run (R7, R46): the model's own field, which no step writes. Log entry 9. -/
  cfg : Config
  /-- `R0` to `R15` (R20, R21). -/
  gprs : Vector Word 16
  /-- `PC`, register 16 (R25). -/
  pc : Word
  /-- `REM`, register 17 (R34). -/
  rem : Word
  /-- `COND`, register 18 (R29). -/
  cond : Word
  /-- `COMP`, register 19 (R32). -/
  comp : Word
  /-- Memory (R50). -/
  mem : Memory
  /-- The running flag (R36). -/
  running : Bool
  /-- The integer answers still to come, the next one first (R43). Log entry 4. -/
  intIn : List IntAnswer
  /-- The characters still to come, the next one first (R44). Log entry 4. -/
  charIn : List Word
  /-- The events emitted so far, oldest first (R42). -/
  trace : List Event
  deriving DecidableEq, Repr

/-- Why there is no next step, in the two cases in which the spec says so; neither is a fault of the
machine. The faults of R172 are not here: each leaves a state the spec describes (R171, R181), so it is a next
state. Log entry 2. -/
inductive Fault where
  /-- Raised by `step` alone, on a state whose `running` is false: "When `running` is false there is
  no step" (R90). Safe. Log entry 3. -/
  | halted
  /-- Raised by `INPUT` and trap 0x20 while the input source has not answered: "the step has no
  successor until the host supplies the answer" (R192; R43, R44). The run neither halts nor faults:
  its state is held, and the step is asked again when an answer stands. Safe. Log entry 5. -/
  | awaitingInput
  deriving DecidableEq, Repr

/-- Why an instruction has no meaning. -/
inductive Refusal where
  /-- Raised by `exec` for an instruction not modelled yet; no arm raises it. Safe. -/
  | notModelled (mnemonic : String)
  deriving DecidableEq, Repr

/-- What a step or an instruction answers. -/
abbrev Result := Host.Outcome State Fault Refusal

/-- The state after reset (R37, R200): every register 0, no output, no input consumed; `running` as at
launch (R37's table, R203; log entry 11), the default parameters (R7), no byte of memory listed (log
entry 1), no answer supplied yet (log entry 4). -/
def State.reset : State :=
  { cfg := Config.specDefault, gprs := Vector.replicate 16 0,
    pc := 0, rem := 0, cond := 0, comp := 0,
    mem := [], running := true, intIn := [], charIn := [], trace := [] }

end Sys2Proof.Machine
end

