-- ==== Sys2Proof/Machine/Operands.lean ====
section
/-! DEFINITION. Operand forms: register fields, immediates, and the addresses formed from them
(10_state.md R20, R23; 30_encoding.md R78, R80, R91; 43_load_store.md R135). -/

namespace Sys2Proof.Machine

/-- The cell a register field names; 20 to 31 name none (R20, R23). -/
def regOf (f : RegField) : Option Reg :=
  if h : f.toNat < 16 then some (.gpr ⟨f.toNat, h⟩)
  else match f.toNat with
    | 16 => some .pc
    | 17 => some .rem
    | 18 => some .cond
    | 19 => some .comp
    | _ => none

/-- A used register field, checked: the cell, or the fault `InvalidRegister` (R23, R91 (1), R178). -/
def checkReg (f : RegField) : Except Diag Reg :=
  match regOf f with
  | some r => .ok r
  | none => .error (.invalidRegister f)

/-- The cell's 32-bit value; `PC` reads as `PCn` while an instruction runs (R22, R27). -/
def State.reg (s : State) : Reg → Word
  | .gpr i => s.gprs[i]
  | .pc => s.pc
  | .rem => s.rem
  | .cond => s.cond
  | .comp => s.comp

/-- `x[i] <- v`, the whole cell (R10, R24). -/
def State.setReg (s : State) (r : Reg) (v : Word) : State :=
  match r with
  | .gpr i => { s with gprs := s.gprs.set i v }
  | .pc => { s with pc := v }
  | .rem => { s with rem := v }
  | .cond => { s with cond := v }
  | .comp => { s with comp := v }

/-- `immz`, the immediate as a number in [0, 65535]: zero-extended in every instruction (R11, R80). -/
def immz (imm : Imm) : Nat := imm.toNat

/-- R135 (b), absolute: the address `STORE` writes. -/
def absoluteAddr (imm : Imm) : Nat := immz imm

/-- R135 (d), PC-relative: the address of the pointer cell of `LDI` and `STI`, `PCn + immz`, an
unbounded natural that is never wrapped (decision D13). -/
def pointerAddr (s : State) (imm : Imm) : Nat := s.pc.toNat + immz imm

end Sys2Proof.Machine
end

