-- ==== Sys2Proof/Machine/Flags.lean ====
section
/-! DEFINITION. The flag computations: `SetFlags` for COND, and the compares' write of COMP
(10_state.md R29 to R33). -/

namespace Sys2Proof.Machine

/-- The pattern of a value: Zero, Positive or Negative by its signed reading (R30). -/
def condPattern (c : Config) (v : Word) : BitVec 3 :=
  if signed v = 0 then c.condZ else if 0 < signed v then c.condP else c.condN

/-- `SetFlags(i)`: COND, the whole cell, from cell `i` as the instruction left it (R30). -/
def State.setFlags (s : State) (i : Reg) : State :=
  s.setReg .cond (zext32 (condPattern s.cfg (s.reg i)))

/-- `x[d] <- v; SetFlags(d)`: how the 14 destination-writing instructions end (R30, R91 (4), (5)).
With `d` = `PC` this is a jump (R145); with `d` = `COND` the result is lost to its flag (R31). -/
def State.writeDest (s : State) (d : Reg) (v : Word) : State :=
  (s.setReg d v).setFlags d

/-- `COMP <- 1 if b else 0`, the whole cell; COND is not touched (R32, R124). -/
def State.setComp (s : State) (b : Bool) : State :=
  s.setReg .comp (if b then 1 else 0)

end Sys2Proof.Machine
end

