-- ==== Sys2Proof/Machine/Ops.lean ====
section
/-! DEFINITION. The named operations over memory, the ports and the program counter, and raising a
fault (20_memory.md R50 to R56; 10_state.md R42 to R44; 60_exceptions.md R171). -/

namespace Sys2Proof.Machine

/-! Bytes of memory. -/

/-- The byte at an address of the array. -/
def Memory.readByte : Memory → Nat → Byte
  | [], _ => Memory.fill
  | (k, b) :: rest, a => if k = a then b else Memory.readByte rest a

/-- Places a cell in front of the first cell with a higher address. -/
def Memory.insertCell (a : Nat) (v : Byte) : Memory → Memory
  | [] => [(a, v)]
  | c :: rest => if a < c.1 then (a, v) :: c :: rest else c :: Memory.insertCell a v rest

/-- The array with one byte changed, in canonical form. -/
def Memory.writeByte (m : Memory) (a : Nat) (v : Byte) : Memory :=
  let others := m.filter fun c => c.1 != a
  if v = Memory.fill then others else Memory.insertCell a v others

/-- `MEM[a] + 256*MEM[a+1] + ...`, `n` bytes (R53, R56). -/
def Memory.loadLE (m : Memory) (a : Nat) : Nat → Nat
  | 0 => 0
  | n + 1 => (m.readByte a).toNat + 256 * Memory.loadLE m (a + 1) n

/-- `MEM[a + k] <- v[8k+7 : 8k]` for `k` in 0 .. n-1 (R54, R56). -/
def Memory.storeLE (m : Memory) (a : Nat) : Nat → Nat → Memory
  | 0, _ => m
  | n + 1, v => Memory.storeLE (m.writeByte a (BitVec.ofNat 8 v)) (a + 1) n (v / 256)

/-! Bounds-checked accesses. -/

/-- The bounds rule, on the address as a natural number, before any wrapping (R52). -/
def State.inBounds (s : State) (addr n : Nat) : Bool := decide (addr + n ≤ s.cfg.memSize)

/-- `MemRead(addr, n)` (R53). -/
def State.memRead (s : State) (addr n : Nat) : Except Diag Nat :=
  if s.inBounds addr n then .ok (s.mem.loadLE addr n) else .error (.outOfBounds addr)

/-- `MemWrite(addr, n, v)`: all `n` bytes or none (R54). -/
def State.memWrite (s : State) (addr n v : Nat) : Except Diag State :=
  if s.inBounds addr n then .ok { s with mem := s.mem.storeLE addr n v }
  else .error (.outOfBounds addr)

/-- The width of every access the core makes (R59). -/
def accessBytes : Nat := 4

/-- A 4-byte read as a 32-bit pattern (R53, R59). -/
def State.loadWord (s : State) (addr : Nat) : Except Diag Word :=
  match s.memRead addr accessBytes with
  | .ok v => .ok (BitVec.ofNat 32 v)
  | .error d => .error d

/-- A 4-byte write of a 32-bit pattern (R54, R59). -/
def State.storeWord (s : State) (addr : Nat) (v : Word) : Except Diag State :=
  s.memWrite addr accessBytes v.toNat

/-! The output port and the fault mechanism. -/

/-- `emit <Event>`: appends to the core's output; the sink always accepts (R10, R42). -/
def State.emit (s : State) (e : Event) : State := { s with trace := s.trace ++ [e] }

/-- The code of a fault kind, the column "code" of R172. -/
def Diag.code : Diag → Nat
  | .outOfBounds _ => 1
  | .divideByZero => 2
  | .unknownOpcode _ => 3
  | .unknownTrapVector _ => 4
  | .malformedInput => 5
  | .invalidRegister _ => 6

/-- Every kind but `UnknownTrapVector` is fatal (R171, R172). -/
def Diag.fatal : Diag → Bool
  | .unknownTrapVector _ => false
  | _ => true

/-- `raise F(info)`, the one way every fault is taken: the diagnostic is emitted and a fatal kind
clears `running`; nothing is saved and nothing is vectored (R171). There is no return beside it: "no
trap or fault ever saves a return point" (R182). -/
def State.raise (s : State) (d : Diag) : State :=
  if d.fatal then { s.emit (.diag d) with running := false } else s.emit (.diag d)

/-- Runs the rest of an instruction on what a check or an access gave, or takes the fault it met in the
state as it stands, abandoning the rest (R91, R171). -/
def State.guard {α : Type} (s : State) (c : Except Diag α) (rest : α → Result) : Result :=
  match c with
  | .ok a => rest a
  | .error d => .next (s.raise d)

/-- A run's ordinary end: `running <- false` and nothing else (R142, R157). -/
def State.stop (s : State) : State := { s with running := false }

/-! The program counter. -/

/-- `PC <- wrap32(PC + 4)`, before dispatch (R25, R26, R90). -/
def State.advancePc (s : State) : State := { s with pc := s.pc + 4 }

/-! The input ports. -/

/-- The wait for an answer: the step has no successor, and the machine's state stays the one before the
step, the `PC` advance included, until the host supplies the answer (R43, R44, R192). Log entry 5. -/
def holdForInput : Result := .fault .awaitingInput

/-- `InInt()`: the next answer and the state with it taken, or none while the source has not answered (R43). -/
def State.inInt (s : State) : Option (IntAnswer × State) :=
  match s.intIn with
  | [] => none
  | a :: rest => some (a, { s with intIn := rest })

/-- What a port `CHAR_IN_BITS` wide delivers: the low bits (R44). DESIGN CHOICE, safe: log entry 6. -/
def charOf (c : Config) (v : Word) : Word := BitVec.ofNat 32 (v.toNat % 2 ^ c.charInBits)

/-- `InChar()` (R44). -/
def State.inChar (s : State) : Option (Word × State) :=
  match s.charIn with
  | [] => none
  | v :: rest => some (charOf s.cfg v, { s with charIn := rest })

end Sys2Proof.Machine
end

