-- ==== Sys2Proof/Machine/Arith.lean ====
section
/-! DEFINITION. ADD, SUB, MUL, DIV (40_arithmetic.md), and the template the register-and-immediate
instructions share (R91). -/

namespace Sys2Proof.Machine

/-- R91's prologue for two used register fields: `r1` checked before `r2`. -/
def withTwoRegs (r1 r2 : RegField) (s : State) (rest : Reg → Reg → Result) : Result :=
  s.guard (checkReg r1) fun d => s.guard (checkReg r2) fun a => rest d a

/-- `a = x[r2]; x[r1] <- f(a); SetFlags(r1)`. -/
def writeFromSrc (f : Word → Word) (r1 r2 : RegField) (s : State) : Result :=
  withTwoRegs r1 r2 s fun d a => .next (s.writeDest d (f (s.reg a)))

/-- R100. -/
def execAdd (r1 r2 : RegField) (imm : Imm) (s : State) : Result :=
  writeFromSrc (fun a => wrap32 (a.toNat + immz imm)) r1 r2 s

/-- R101. -/
def execSub (r1 r2 : RegField) (imm : Imm) (s : State) : Result :=
  writeFromSrc (fun a => wrap32 (a.toNat - immz imm)) r1 r2 s

/-- R102: the low 32 bits of the product. -/
def execMul (r1 r2 : RegField) (imm : Imm) (s : State) : Result :=
  writeFromSrc (fun a => wrap32 (a.toNat * immz imm)) r1 r2 s

/-- R103: floor division of the signed dividend; the remainder is written after the quotient (R35). -/
def execDiv (r1 r2 : RegField) (imm : Imm) (s : State) : Result :=
  withTwoRegs r1 r2 s fun d a =>
    s.guard (if immz imm = 0 then .error .divideByZero else .ok (signed (s.reg a))) fun n =>
      let q := floorDiv n (immz imm)
      let m := floorMod n (immz imm)
      .next (((s.setReg d (wrap32 q)).setReg .rem (wrap32 m)).setFlags d)

end Sys2Proof.Machine
end

