-- ==== Sys2Proof/Machine/Compare.lean ====
section
/-! DEFINITION. CMP_EQ, CMP_NEQ, CMP_GT, CMP_LT (42_compare.md). -/

namespace Sys2Proof.Machine

/-- `a = x[r1]; b = x[r2]; COMP <- 1 if a REL b else 0`; nothing else is written. -/
def compareRegs (rel : Word → Word → Bool) (r1 r2 : RegField) (s : State) : Result :=
  withTwoRegs r1 r2 s fun a b => .next (s.setComp (rel (s.reg a) (s.reg b)))

/-- R120. -/
def execCmpEq (r1 r2 : RegField) (s : State) : Result :=
  compareRegs (fun a b => a == b) r1 r2 s

/-- R121. -/
def execCmpNeq (r1 r2 : RegField) (s : State) : Result :=
  compareRegs (fun a b => a != b) r1 r2 s

/-- R122: the signed values. -/
def execCmpGt (r1 r2 : RegField) (s : State) : Result :=
  compareRegs (fun a b => decide (signed a > signed b)) r1 r2 s

/-- R123: the signed values. -/
def execCmpLt (r1 r2 : RegField) (s : State) : Result :=
  compareRegs (fun a b => decide (signed a < signed b)) r1 r2 s

end Sys2Proof.Machine
end

