-- ==== Sys2Proof/Machine/Control.lean ====
section
/-! DEFINITION. JMP_ABS, JMP_REL, HALT (44_control.md). `PC` as a destination needs nothing here: it
is `State.writeDest` on the cell `pc` (R145). -/

namespace Sys2Proof.Machine

/-- R140. -/
def execJmpAbs (imm : Imm) (s : State) : Result :=
  .next (s.setReg .pc (zext32 imm))

/-- R141. -/
def execJmpRel (imm : Imm) (s : State) : Result :=
  .next (s.setReg .pc (wrap32 (s.pc.toNat + immz imm)))

/-- R142: the normal end of a run; no diagnostic. -/
def execHalt (s : State) : Result := .next s.stop

end Sys2Proof.Machine
end

