-- ==== Sys2Proof/Machine/DataMove.lean ====
section
/-! DEFINITION. LOAD, STORE, LDI, STI, LEA (43_load_store.md). -/

namespace Sys2Proof.Machine

/-- R130: a literal; no memory access. -/
def execLoad (r1 : RegField) (imm : Imm) (s : State) : Result :=
  s.guard (checkReg r1) fun d => .next (s.writeDest d (zext32 imm))

/-- R131: absolute. -/
def execStore (r1 : RegField) (imm : Imm) (s : State) : Result :=
  s.guard (checkReg r1) fun r =>
    s.guard (s.storeWord (absoluteAddr imm) (s.reg r)) .next

/-- R132: through the pointer cell at `PCn + immz`. -/
def execLdi (r1 : RegField) (imm : Imm) (s : State) : Result :=
  s.guard (checkReg r1) fun d =>
    s.guard (s.loadWord (pointerAddr s imm)) fun ptr =>
      s.guard (s.loadWord ptr.toNat) fun v => .next (s.writeDest d v)

/-- R133: through the pointer cell at `PCn + immz`. -/
def execSti (r1 : RegField) (imm : Imm) (s : State) : Result :=
  s.guard (checkReg r1) fun r =>
    s.guard (s.loadWord (pointerAddr s imm)) fun ptr =>
      s.guard (s.storeWord ptr.toNat (s.reg r)) .next

/-- R134: the address computation only, wrapped to 32 bits. -/
def execLea (r1 : RegField) (imm : Imm) (s : State) : Result :=
  s.guard (checkReg r1) fun d => .next (s.writeDest d (wrap32 (s.pc.toNat + immz imm)))

end Sys2Proof.Machine
end

