-- ==== Sys2Proof/Machine/IoTrap.lean ====
section
/-! DEFINITION. INPUT, OUTPUT, TRAP and the trap handlers (45_io_trap.md). -/

namespace Sys2Proof.Machine

/-- R150, R151. The register field is checked before the port is asked; while the source has not
answered, the step has no successor (R192). -/
def execInput (r1 : RegField) (s : State) : Result :=
  s.guard (checkReg r1) fun d =>
    match s.inInt with
    | none => holdForInput
    | some (.malformed, t) => .next (t.raise .malformedInput)
    | some (.value v, t) => .next (t.writeDest d v)

/-- R156: the field's index and the cell's value. -/
def execOutput (r1 : RegField) (s : State) : Result :=
  s.guard (checkReg r1) fun r => .next (s.emit (.outInt r1 (s.reg r)))

/-- `TRAP_GETC` (R7, R154). -/
def trapGetcVec : TrapVec := 0x20

/-- `TRAP_OUT` (R7, R155). -/
def trapOutVec : TrapVec := 0x21

/-- R154: one character into `R0`, zero-extended; COND is not updated (R153). While the source has not
answered, the step has no successor (R192). -/
def trapGetc (s : State) : Result :=
  match s.inChar with
  | none => holdForInput
  | some (c, t) => .next (t.setReg (.gpr 0) c)

/-- R155: the low 8 bits of `R0`. -/
def trapOut (s : State) : Result :=
  .next (s.emit (.outChar ((s.reg (.gpr 0)).extractLsb' 0 8)))

/-- R157: the software halt. -/
def trapHalt (s : State) : Result := .next s.stop

/-- R158: reported, and the run continues. -/
def trapUnknown (vec : TrapVec) (s : State) : Result :=
  .next (s.raise (.unknownTrapVector vec))

/-- R152: the fixed mapping from vector to handler. -/
def execTrap (vec : TrapVec) (s : State) : Result :=
  if vec = trapGetcVec then trapGetc s
  else if vec = trapOutVec then trapOut s
  else if vec = s.cfg.trapHaltVec then trapHalt s
  else trapUnknown vec s

end Sys2Proof.Machine
end

