-- ==== Sys2Proof/Machine/Logic.lean ====
section
/-! DEFINITION. AND, OR, XOR, NOT, SHL, SHR (41_logic_shift.md). -/

namespace Sys2Proof.Machine

/-- R110. -/
def execAnd (r1 r2 : RegField) (imm : Imm) (s : State) : Result :=
  writeFromSrc (fun a => a &&& zext32 imm) r1 r2 s

/-- R111. -/
def execOr (r1 r2 : RegField) (imm : Imm) (s : State) : Result :=
  writeFromSrc (fun a => a ||| zext32 imm) r1 r2 s

/-- R112. -/
def execXor (r1 r2 : RegField) (imm : Imm) (s : State) : Result :=
  writeFromSrc (fun a => a ^^^ zext32 imm) r1 r2 s

/-- R113: all 32 bits complemented. -/
def execNot (r1 r2 : RegField) (s : State) : Result :=
  writeFromSrc (fun a => a ^^^ 0xFFFFFFFF) r1 r2 s

/-- R114: `wrap32(a * 2^immz)`, the amount not masked. -/
def execShl (r1 r2 : RegField) (imm : Imm) (s : State) : Result :=
  writeFromSrc (fun a => a <<< immz imm) r1 r2 s

/-- R115: `floor(a / 2^immz)` of the unsigned pattern, the amount not masked. -/
def execShr (r1 r2 : RegField) (imm : Imm) (s : State) : Result :=
  writeFromSrc (fun a => a >>> immz imm) r1 r2 s

end Sys2Proof.Machine
end

