-- ==== Sys2Proof/Machine/Dispatch.lean ====
section
/-! DEFINITION. The meaning of each instruction, one arm a constructor (30_encoding.md R90's "Execute
the rule of the instruction OPC selects"). The state given has `PC` = `PCn`. -/

namespace Sys2Proof.Machine

def exec (i : Instr) (s : State) : Host.Outcome State Fault Refusal :=
  match i with
  | .add r1 r2 imm => Sys2Proof.Machine.execAdd r1 r2 imm s
  | .sub r1 r2 imm => Sys2Proof.Machine.execSub r1 r2 imm s
  | .mul r1 r2 imm => Sys2Proof.Machine.execMul r1 r2 imm s
  | .div r1 r2 imm => Sys2Proof.Machine.execDiv r1 r2 imm s
  | .and r1 r2 imm => Sys2Proof.Machine.execAnd r1 r2 imm s
  | .or r1 r2 imm => Sys2Proof.Machine.execOr r1 r2 imm s
  | .xor r1 r2 imm => Sys2Proof.Machine.execXor r1 r2 imm s
  | .not r1 r2 => Sys2Proof.Machine.execNot r1 r2 s
  | .shl r1 r2 imm => Sys2Proof.Machine.execShl r1 r2 imm s
  | .shr r1 r2 imm => Sys2Proof.Machine.execShr r1 r2 imm s
  | .cmpEq r1 r2 => Sys2Proof.Machine.execCmpEq r1 r2 s
  | .cmpNeq r1 r2 => Sys2Proof.Machine.execCmpNeq r1 r2 s
  | .cmpGt r1 r2 => Sys2Proof.Machine.execCmpGt r1 r2 s
  | .cmpLt r1 r2 => Sys2Proof.Machine.execCmpLt r1 r2 s
  | .load r1 imm => Sys2Proof.Machine.execLoad r1 imm s
  | .store r1 imm => Sys2Proof.Machine.execStore r1 imm s
  | .ldi r1 imm => Sys2Proof.Machine.execLdi r1 imm s
  | .sti r1 imm => Sys2Proof.Machine.execSti r1 imm s
  | .lea r1 imm => Sys2Proof.Machine.execLea r1 imm s
  | .jmpAbs imm => Sys2Proof.Machine.execJmpAbs imm s
  | .jmpRel imm => Sys2Proof.Machine.execJmpRel imm s
  | .input r1 => Sys2Proof.Machine.execInput r1 s
  | .output r1 => Sys2Proof.Machine.execOutput r1 s
  | .trap vec => Sys2Proof.Machine.execTrap vec s
  | .halt => Sys2Proof.Machine.execHalt s

end Sys2Proof.Machine
end

