-- ==== Sys2Proof/WellFormed.lean ====
section
/-! DEFINITION. Well-formed instructions: the ones R86's notation can write, whose used register
fields all name one of the 20 cells (10_state.md R20, R23; 30_encoding.md R78, R85). -/

namespace Sys2Proof

/-- A register field that names a cell (R20): 0 to 19. -/
def RegField.names (f : RegField) : Bool := decide (f.toNat < 20)

/-- Every used register field names a cell. Immediates and vectors have no ill-formed value. -/
def Instr.wf : Instr → Bool
  | .add r1 r2 _ => RegField.names r1 && RegField.names r2
  | .sub r1 r2 _ => RegField.names r1 && RegField.names r2
  | .mul r1 r2 _ => RegField.names r1 && RegField.names r2
  | .div r1 r2 _ => RegField.names r1 && RegField.names r2
  | .and r1 r2 _ => RegField.names r1 && RegField.names r2
  | .or r1 r2 _ => RegField.names r1 && RegField.names r2
  | .xor r1 r2 _ => RegField.names r1 && RegField.names r2
  | .not r1 r2 => RegField.names r1 && RegField.names r2
  | .shl r1 r2 _ => RegField.names r1 && RegField.names r2
  | .shr r1 r2 _ => RegField.names r1 && RegField.names r2
  | .cmpEq r1 r2 => RegField.names r1 && RegField.names r2
  | .cmpNeq r1 r2 => RegField.names r1 && RegField.names r2
  | .cmpGt r1 r2 => RegField.names r1 && RegField.names r2
  | .cmpLt r1 r2 => RegField.names r1 && RegField.names r2
  | .load r1 _ => RegField.names r1
  | .store r1 _ => RegField.names r1
  | .ldi r1 _ => RegField.names r1
  | .sti r1 _ => RegField.names r1
  | .lea r1 _ => RegField.names r1
  | .jmpAbs _ => true
  | .jmpRel _ => true
  | .input r1 => RegField.names r1
  | .output r1 => RegField.names r1
  | .trap _ => true
  | .halt => true

end Sys2Proof
end

