-- ==== Sys2Proof/Decode.lean ====
section
/-! DEFINITION. Decoding an instruction word and, after it, encoding an instruction
(30_encoding.md R75 to R85, R88). -/

namespace Sys2Proof

/-- What `Decode(iw)` extracts (R77). -/
structure Fields where
  opc : Opcode
  r1 : RegField
  r2 : RegField
  imm : Imm
  deriving DecidableEq, Repr

/-- R76, R77: the four fields by fixed bit extraction; `iw[16]` is dropped (R79). -/
def fieldsOf (iw : Word) : Fields :=
  { opc := iw.extractLsb' 27 5, r1 := iw.extractLsb' 22 5, r2 := iw.extractLsb' 17 5,
    imm := iw.extractLsb' 0 16 }

/-- R81: the trap vector is `imm[7:0]`. -/
def trapVecOf (imm : Imm) : TrapVec := imm.extractLsb' 0 8

/-- The mnemonic whose opcode value this is, if there is one (R82, R83). -/
def OpcodeMap.lookup (m : OpcodeMap) (o : Opcode) : Option Mnemonic :=
  Mnemonic.all.find? fun k => m.opcodeOf k == o

/-- R78: which field carries which operand; the fields an instruction does not use are dropped (R85). -/
def assemble (k : Mnemonic) (f : Fields) : Instr :=
  match k with
  | .add => .add f.r1 f.r2 f.imm
  | .sub => .sub f.r1 f.r2 f.imm
  | .mul => .mul f.r1 f.r2 f.imm
  | .div => .div f.r1 f.r2 f.imm
  | .and => .and f.r1 f.r2 f.imm
  | .or => .or f.r1 f.r2 f.imm
  | .xor => .xor f.r1 f.r2 f.imm
  | .not => .not f.r1 f.r2
  | .shl => .shl f.r1 f.r2 f.imm
  | .shr => .shr f.r1 f.r2 f.imm
  | .cmpEq => .cmpEq f.r1 f.r2
  | .cmpNeq => .cmpNeq f.r1 f.r2
  | .cmpGt => .cmpGt f.r1 f.r2
  | .cmpLt => .cmpLt f.r1 f.r2
  | .load => .load f.r1 f.imm
  | .store => .store f.r1 f.imm
  | .ldi => .ldi f.r1 f.imm
  | .sti => .sti f.r1 f.imm
  | .lea => .lea f.r1 f.imm
  | .jmpAbs => .jmpAbs f.imm
  | .jmpRel => .jmpRel f.imm
  | .input => .input f.r1
  | .output => .output f.r1
  | .trap => .trap (trapVecOf f.imm)
  | .halt => .halt

/-- Why a word is no instruction. -/
inductive DecodeReject where
  /-- Its opcode value is assigned to no mnemonic (R83). -/
  | unknownOpcode (opc : Opcode)
  deriving DecidableEq, Repr

/-- The instruction a word stands for under the map `m`, or the opcode value that has no handler. The
field extraction never fails (R77); dispatch raises the fault (R83, R90). -/
def decode (m : OpcodeMap) (iw : Word) : Except DecodeReject Instr :=
  match m.lookup (fieldsOf iw).opc with
  | some k => .ok (assemble k (fieldsOf iw))
  | none => .error (.unknownOpcode (fieldsOf iw).opc)

/-! The encoder (R88). -/

/-- The mnemonic an instruction carries. -/
def Instr.mnemonic : Instr → Mnemonic
  | .add .. => .add
  | .sub .. => .sub
  | .mul .. => .mul
  | .div .. => .div
  | .and .. => .and
  | .or .. => .or
  | .xor .. => .xor
  | .not .. => .not
  | .shl .. => .shl
  | .shr .. => .shr
  | .cmpEq .. => .cmpEq
  | .cmpNeq .. => .cmpNeq
  | .cmpGt .. => .cmpGt
  | .cmpLt .. => .cmpLt
  | .load .. => .load
  | .store .. => .store
  | .ldi .. => .ldi
  | .sti .. => .sti
  | .lea .. => .lea
  | .jmpAbs .. => .jmpAbs
  | .jmpRel .. => .jmpRel
  | .input .. => .input
  | .output .. => .output
  | .trap .. => .trap
  | .halt => .halt

/-- `OPC(M)*2^27 + r1*2^22 + r2*2^17 + 0*2^16 + imm` (R88). -/
def packFields (f : Fields) : Word :=
  BitVec.ofNat 32 (f.opc.toNat * 2 ^ 27 + f.r1.toNat * 2 ^ 22 + f.r2.toNat * 2 ^ 17 + f.imm.toNat)

/-- The fields of an instruction's canonical word: unused fields are zero (R85, R88). -/
def Instr.fields (m : OpcodeMap) (i : Instr) : Fields :=
  let o := m.opcodeOf i.mnemonic
  match i with
  | .add r1 r2 imm => ⟨o, r1, r2, imm⟩
  | .sub r1 r2 imm => ⟨o, r1, r2, imm⟩
  | .mul r1 r2 imm => ⟨o, r1, r2, imm⟩
  | .div r1 r2 imm => ⟨o, r1, r2, imm⟩
  | .and r1 r2 imm => ⟨o, r1, r2, imm⟩
  | .or r1 r2 imm => ⟨o, r1, r2, imm⟩
  | .xor r1 r2 imm => ⟨o, r1, r2, imm⟩
  | .not r1 r2 => ⟨o, r1, r2, 0⟩
  | .shl r1 r2 imm => ⟨o, r1, r2, imm⟩
  | .shr r1 r2 imm => ⟨o, r1, r2, imm⟩
  | .cmpEq r1 r2 => ⟨o, r1, r2, 0⟩
  | .cmpNeq r1 r2 => ⟨o, r1, r2, 0⟩
  | .cmpGt r1 r2 => ⟨o, r1, r2, 0⟩
  | .cmpLt r1 r2 => ⟨o, r1, r2, 0⟩
  | .load r1 imm => ⟨o, r1, 0, imm⟩
  | .store r1 imm => ⟨o, r1, 0, imm⟩
  | .ldi r1 imm => ⟨o, r1, 0, imm⟩
  | .sti r1 imm => ⟨o, r1, 0, imm⟩
  | .lea r1 imm => ⟨o, r1, 0, imm⟩
  | .jmpAbs imm => ⟨o, 0, 0, imm⟩
  | .jmpRel imm => ⟨o, 0, 0, imm⟩
  | .input r1 => ⟨o, r1, 0, 0⟩
  | .output r1 => ⟨o, r1, 0, 0⟩
  | .trap vec => ⟨o, 0, 0, vec.setWidth 16⟩
  | .halt => ⟨o, 0, 0, 0⟩

/-- The canonical word of an instruction under the map `m` (R88). -/
def encode (m : OpcodeMap) (i : Instr) : Word := packFields (i.fields m)

/-! Words as bytes: little-endian, the lowest address first (R75; 20_memory.md R56). -/

/-- The word whose bytes at `a` .. `a+3` these are (R56). -/
def wordOfBytes (b0 b1 b2 b3 : Byte) : Word :=
  BitVec.ofNat 32 (b0.toNat + 256 * b1.toNat + 256 ^ 2 * b2.toNat + 256 ^ 3 * b3.toNat)

/-- The decoder on bytes: the first four are the instruction; fewer are none. -/
def decodeBytes (m : OpcodeMap) : List Byte → Option (Except DecodeReject Instr)
  | b0 :: b1 :: b2 :: b3 :: _ => some (decode m (wordOfBytes b0 b1 b2 b3))
  | _ => none

/-- The instruction the decoder reads, under the default opcode map, from the instruction whose bits
are `w`, numbered as spec/opcode_table.json numbers them; the bits from `nbits` up are zero. -/
def decodeTableWord (nbits w : Nat) : Option Instr :=
  let v := w % 2 ^ nbits
  let b (k : Nat) : Byte := BitVec.ofNat 8 (v / 256 ^ k)
  match decodeBytes OpcodeMap.specDefault [b 0, b 1, b 2, b 3] with
  | some (.ok i) => some i
  | _ => none

end Sys2Proof
end

