-- ==== Sys2Proof/Machine/Fetch.lean ====
section
/-! DEFINITION. Fetching the next instruction word, and dispatching an opcode value with no handler
(30_encoding.md R90; 10_state.md R28). -/

namespace Sys2Proof.Machine

/-- `if a ≥ MEM_SIZE then raise OutOfBounds(a); iw = MemRead(a, 4)` with `a = PC` (R90). -/
def State.fetch (s : State) : Except Diag Word :=
  if s.cfg.memSize ≤ s.pc.toNat then .error (.outOfBounds s.pc.toNat) else s.loadWord s.pc.toNat

/-- The instruction of a fetched word under the run's `OPC`, or the fault of dispatch (R83, R90). -/
def State.dispatch (s : State) (iw : Word) : Except Diag Instr :=
  match decode s.cfg.opc iw with
  | .ok i => .ok i
  | .error (.unknownOpcode o) => .error (.unknownOpcode o)

/-- The state with a word stored where the next step fetches. DESIGN CHOICE, safe: where a word there is
out of bounds nothing is stored, and the next fetch faults. Log entry 12. -/
def State.placeWord (s : State) (iw : Word) : State :=
  match s.storeWord s.pc.toNat iw with
  | .ok t => t
  | .error _ => s

end Sys2Proof.Machine
end

