-- ==== Sys2Proof/Machine/Step.lean ====
section
/-! DEFINITION. One step of the ExecutionLoop (30_encoding.md R90). -/

namespace Sys2Proof.Machine

/-- `Step()` (R90): fetch, advance `PC`, decode, dispatch. A fetch fault leaves `PC`; every later fault
is taken with `PC` advanced. "When `running` is false there is no step". -/
def step (s : State) : Host.Outcome State Fault Refusal :=
  if s.running then
    s.guard s.fetch fun iw =>
      s.advancePc.guard (s.dispatch iw) fun i => exec i s.advancePc
  else .fault .halted

/-- `s` with the instruction whose bits are `w` (those from `nbits` up zero) at `PC`. A program comes
into memory by the loader, from outside the machine; this stands for that load. Log entry 12. -/
def State.withFetchWord (s : State) (nbits w : Nat) : State :=
  s.placeWord (BitVec.ofNat 32 (w % 2 ^ nbits))

end Sys2Proof.Machine
end

