-- ==== Sys2Proof/Machine/Launch.lean ====
section
/-! DEFINITION. What the host does: the loader before launch, the input source during the run
(10_state.md R41, R43, R44; 70_reset_and_hazards.md R203, R204, R206). No step calls anything here. -/

namespace Sys2Proof.Machine

/-- The loader writes one byte of Memory (R41). An address outside [0, MEM_SIZE) names no byte (R50), and
the spec gives the host no write there: DESIGN CHOICE, such a write leaves the state. Log entry 27. -/
def State.loadByte (s : State) (a : Nat) (v : Byte) : State :=
  if a < s.cfg.memSize then { s with mem := s.mem.writeByte a v } else s

/-- Consecutive instruction or data words, little-endian, from address `a` (R204), byte by byte (R41).
The spec does not say what a word straddling the end of Memory does: DESIGN CHOICE, unsafe, the bytes
below MEM_SIZE are written and the rest are dropped without a report. Log entry 27. -/
def State.loadWords (s : State) (a : Nat) : List Word → State
  | [] => s
  | w :: ws =>
    let t := (((s.loadByte a (w.extractLsb' 0 8)).loadByte (a + 1) (w.extractLsb' 8 8)).loadByte
      (a + 2) (w.extractLsb' 16 8)).loadByte (a + 3) (w.extractLsb' 24 8)
    State.loadWords t (a + 4) ws

/-- The loader presets a register cell (R204). -/
def State.preset (s : State) (r : Reg) (v : Word) : State := s.setReg r v

/-- The run's parameters, fixed before launch (R7, R46). -/
def State.configure (s : State) (c : Config) : State := { s with cfg := c }

/-- `running <- true` (R203). -/
def State.launch (s : State) : State := { s with running := true }

/-- The input source answers a request for an integer (R43, R206). -/
def State.supplyInt (s : State) (a : IntAnswer) : State := { s with intIn := s.intIn ++ [a] }

/-- The input source answers a request for a character (R44, R206). -/
def State.supplyChar (s : State) (c : Word) : State := { s with charIn := s.charIn ++ [c] }

end Sys2Proof.Machine
end

