-- ==== Sys2Proof/Safety.lean ====
section
/-! DEFINITION. What claims speak of: the end of a run and its outcome (70_reset_and_hazards.md R208), a
run that ended without a fault, the states a run can be in, and the words of the frame statements. -/

namespace Sys2Proof.Machine

/-- The kinds of ending (R208 (a)). -/
inductive Ending where
  | normal
  | faulted (d : Diag)
  deriving DecidableEq, Repr

/-- The diagnostic of an event, if it is a fatal one. -/
def Event.fatalDiag : Event → Option Diag
  | .diag d => if d.fatal then some d else none
  | _ => none

/-- How a run has ended, if it has: "exactly when `running` is false", by the fatal fault of its last
step or normally (R208). A fatal fault is always the last event of its run (R171, R181). -/
def State.ending (s : State) : Option Ending :=
  if s.running then none
  else match s.trace.getLast?.bind Event.fatalDiag with
    | some d => some (.faulted d)
    | none => some .normal

/-- What the host can read of an ended run (R207, R208): its ending, the output trace, the 20 register
cells, the memory image. -/
structure RunOutcome where
  ending : Ending
  trace : List Event
  regs : Reg → Word
  image : Nat → Byte

/-- The outcome of an ended run; a run that has not ended has none (R208). -/
def State.outcome? (s : State) : Option RunOutcome :=
  s.ending.map fun e => ⟨e, s.trace, s.reg, s.mem.readByte⟩

/-- At most `k` steps, staying in a state that has no next step, the run having ended (R36) or waiting
for input (R192). The bound is the executor's and no halt of the machine (R209). -/
def runFor : Nat → State → State
  | 0, s => s
  | k + 1, s =>
    match step s with
    | .next t => runFor k t
    | _ => s

/-- A safe end: the run has ended, and by no fault. -/
def State.endedSafely (s : State) : Bool := s.ending == some .normal

/-- Bytes of memory exist below MEM_SIZE only (R50). -/
abbrev State.memInside (s : State) : Prop := ∀ c ∈ s.mem, c.1 < s.cfg.memSize

/-- COND holds no flag yet, or one of the three patterns in its low three bits (R29, R31). -/
abbrev State.condLegal (s : State) : Prop :=
  s.cond = 0 ∨ s.cond = zext32 s.cfg.condZ ∨ s.cond = zext32 s.cfg.condP ∨ s.cond = zext32 s.cfg.condN

/-- Fatal diagnostics stand nowhere before the last event, and nowhere at all while the machine runs
(R171, R181). -/
abbrev State.traceLegal (s : State) : Prop :=
  (∀ e ∈ s.trace.dropLast, e.fatalDiag = none) ∧
  (s.running = true → ∀ e ∈ s.trace, e.fatalDiag = none)

/-- What holds of every state a run can be in. -/
abbrev State.Inv (s : State) : Prop :=
  s.cfg.wf ∧ s.mem.wf ∧ s.memInside ∧ s.condLegal ∧ s.traceLegal

/-! Words of the frame statements. -/

/-- Every register not listed holds what it held. -/
def SameRegsBut (s t : State) (ds : List Reg) : Prop := ∀ r, r ∉ ds → t.reg r = s.reg r

/-- Every byte of memory reads as it read. -/
def SameMemory (s t : State) : Prop := ∀ a, t.mem.readByte a = s.mem.readByte a

/-- Parameters, inputs still to come and output are as they were. -/
def SameBoundary (s t : State) : Prop :=
  t.cfg = s.cfg ∧ t.intIn = s.intIn ∧ t.charIn = s.charIn ∧ t.trace = s.trace

/-- Only the listed registers may differ. -/
def WritesOnly (s t : State) (ds : List Reg) : Prop :=
  SameRegsBut s t ds ∧ SameMemory s t ∧ t.running = s.running ∧ SameBoundary s t

/-- COND holds the pattern of the sign of `n` and nothing above its three bits (R30). -/
def CondShows (t : State) (n : Int) : Prop :=
  (n = 0 → t.cond.toNat = t.cfg.condZ.toNat) ∧ (0 < n → t.cond.toNat = t.cfg.condP.toNat) ∧
  (n < 0 → t.cond.toNat = t.cfg.condN.toNat)

/-- `v` went to `d`, COND shows its sign, and nothing else changed. Where `d` is COND the value is lost
to its flag (R31); where `d` is PC this is a jump (R145). -/
def DestGets (s t : State) (d : Reg) (v : Word) : Prop :=
  (d ≠ .cond → t.reg d = v) ∧ CondShows t v.toInt ∧ WritesOnly s t [d, .cond]

/-- The fatal fault `d` was taken and did nothing else: the diagnostic, `running` false (R171). -/
def FaultsWith (s t : State) (d : Diag) : Prop :=
  t.trace = s.trace ++ [.diag d] ∧ t.running = false ∧ SameRegsBut s t [] ∧ SameMemory s t ∧
  t.cfg = s.cfg ∧ t.intIn = s.intIn ∧ t.charIn = s.charIn

/-- `n` bytes of memory from `e` hold `v` little-endian, and every other byte is as it was (R54). -/
def StoresOnly (s t : State) (e n v : Nat) : Prop :=
  (∀ k, k < n → (t.mem.readByte (e + k)).toNat = v / 256 ^ k % 256) ∧
  (∀ a, a < e ∨ e + n ≤ a → t.mem.readByte a = s.mem.readByte a) ∧
  SameRegsBut s t [] ∧ t.running = s.running ∧ SameBoundary s t

/-! Words about instructions: which fields one uses and what it may write (R78, R30, R143). -/

/-- Whether the field `r1` is used (R78's table). -/
def usesR1 (k : Mnemonic) : Bool := !([.jmpAbs, .jmpRel, .trap, .halt].contains k)

/-- Whether the field `r2` is used (R78's table). -/
def usesR2 (k : Mnemonic) : Bool :=
  [.add, .sub, .mul, .div, .and, .or, .xor, .not, .shl, .shr, .cmpEq, .cmpNeq, .cmpGt, .cmpLt].contains k

/-- How many low bits of `imm` are used (R78's table, R81). -/
def immBits (k : Mnemonic) : Nat :=
  if k = .trap then 8
  else if [.not, .cmpEq, .cmpNeq, .cmpGt, .cmpLt, .input, .output, .halt].contains k then 0 else 16

/-- Two words agree on the fields the mnemonic uses. -/
def AgreeOnUsed (k : Mnemonic) (f g : Fields) : Prop :=
  f.opc = g.opc ∧ (usesR1 k = true → f.r1 = g.r1) ∧ (usesR2 k = true → f.r2 = g.r2) ∧
  f.imm.toNat % 2 ^ immBits k = g.imm.toNat % 2 ^ immBits k

/-- The used register fields, in the order they are checked (R78, R91). -/
def usedRegs : Instr → List RegField
  | .add r1 r2 _ | .sub r1 r2 _ | .mul r1 r2 _ | .div r1 r2 _ => [r1, r2]
  | .and r1 r2 _ | .or r1 r2 _ | .xor r1 r2 _ | .not r1 r2 | .shl r1 r2 _ | .shr r1 r2 _ => [r1, r2]
  | .cmpEq r1 r2 | .cmpNeq r1 r2 | .cmpGt r1 r2 | .cmpLt r1 r2 => [r1, r2]
  | .load r1 _ | .store r1 _ | .ldi r1 _ | .sti r1 _ | .lea r1 _ => [r1]
  | .input r1 | .output r1 => [r1]
  | .jmpAbs _ | .jmpRel _ | .trap _ | .halt => []

/-- The destination field of the 14 instructions that have one (R30, R78). -/
def destField : Instr → Option RegField
  | .add r1 _ _ | .sub r1 _ _ | .mul r1 _ _ | .div r1 _ _ => some r1
  | .and r1 _ _ | .or r1 _ _ | .xor r1 _ _ | .not r1 _ | .shl r1 _ _ | .shr r1 _ _ => some r1
  | .load r1 _ | .ldi r1 _ | .lea r1 _ | .input r1 => some r1
  | .cmpEq _ _ | .cmpNeq _ _ | .cmpGt _ _ | .cmpLt _ _ => none
  | .store _ _ | .sti _ _ | .jmpAbs _ | .jmpRel _ | .output _ | .trap _ | .halt => none

/-- The registers an instruction may write: its destination and COND (R30); REM for DIV (R34); COMP for
the compares (R32); PC for the jumps (R143); R0 for trap 0x20 (R154). -/
def writtenRegs (i : Instr) : List Reg :=
  (match destField i with
    | some f => (regOf f).toList ++ [.cond]
    | none => []) ++
  (match i with
    | .div _ _ _ => [.rem]
    | .cmpEq _ _ | .cmpNeq _ _ | .cmpGt _ _ | .cmpLt _ _ => [.comp]
    | .jmpAbs _ | .jmpRel _ => [.pc]
    | .trap vec => if vec = 0x20 then [.gpr 0] else []
    | _ => [])

/-- Where an instruction stores its 4 bytes, if it stores (R131, R133), with the functions its meaning uses. -/
def storeAddr (i : Instr) (s : State) : Option Nat :=
  match i with
  | .store _ imm => some (absoluteAddr imm)
  | .sti _ imm => some (s.mem.loadLE (pointerAddr s imm) 4)
  | _ => none

/-- The instruction waits: it asks a port whose source has not answered (R43, R44, R192). -/
def Waits (i : Instr) (s : State) : Prop :=
  (∃ f, i = .input f ∧ (regOf f).isSome ∧ s.intIn = []) ∨ (i = .trap 0x20 ∧ s.charIn = [])

/-- The instruction the next step dispatches. -/
def Runs (s : State) (i : Instr) : Prop := ∃ iw, s.fetch = .ok iw ∧ decode s.cfg.opc iw = .ok i

end Sys2Proof.Machine
end

