-- ==== Sys2Proof/Certificates/Slice0/Obligations.lean ====
section
/-! DEFINITION. The statements for the provers, in the words of Safety.lean. In all of them the state
given to `exec` has `PC` = `PCn`, the advanced value (30_encoding.md R90); what the step does around
`exec` is StepRunsTheDecodedInstruction. -/

open Sys2Proof Sys2Proof.Machine

/-! Encoding. -/

/-- R88: decoding an instruction's canonical word gives the instruction back, with every operand at
every value its field admits, under every opcode map R7 allows. -/
def Obligations.DecodeOfEncodeIsTheInstruction : Prop :=
  ∀ m : OpcodeMap, m.wf → ∀ i : Instr, decode m (encode m i) = .ok i

/-- The other direction (R77, R78, R85): encoding what a word decodes to keeps every field the instruction uses. -/
def Obligations.EncodeOfDecodeKeepsUsedFields : Prop :=
  ∀ (m : OpcodeMap) (w : Word) (i : Instr), decode m w = .ok i →
    AgreeOnUsed i.mnemonic (fieldsOf (encode m i)) (fieldsOf w)

/-- R85 (the spec's decision D9), R81, R159: words that agree on the fields their instruction uses
decode to the same instruction. -/
def Obligations.UnusedFieldsAreIgnored : Prop :=
  ∀ (m : OpcodeMap) (w w' : Word) (k : Mnemonic), m.lookup (fieldsOf w).opc = some k →
    AgreeOnUsed k (fieldsOf w) (fieldsOf w') → decode m w = decode m w'

/-- R79: bit 16 changes neither the instruction dispatched nor the fault. -/
def Obligations.ReservedBitIsIgnored : Prop :=
  ∀ (s : State) (w : Word), s.dispatch (w ^^^ 0x10000) = s.dispatch w

/-- R82, R83, R84: each assigned opcode value selects its instruction whatever the other 27 bits are,
and a value no mnemonic has is no instruction. -/
def Obligations.OpcodeAloneSelectsTheInstruction : Prop :=
  ∀ m : OpcodeMap, m.wf → ∀ w : Word,
    (∀ k, (fieldsOf w).opc = m.opcodeOf k → ∃ i, decode m w = .ok i ∧ i.mnemonic = k) ∧
    ((∀ k, (fieldsOf w).opc ≠ m.opcodeOf k) → decode m w = .error (.unknownOpcode (fieldsOf w).opc))

/-- A sanity check: words written out from R76 and R82 decode to what they stand for (default map). -/
def Obligations.WrittenOutWordsDecode : Prop :=
  decodeTableWord 32 0x08020005 = some (.add 0 1 5) ∧ decodeTableWord 32 0x40441234 = some (.not 1 2) ∧
  decodeTableWord 32 0x70440000 = some (.cmpLt 1 2) ∧ decodeTableWord 32 0x9040000C = some (.sti 1 0xC) ∧
  decodeTableWord 32 0xA8000008 = some (.jmpRel 8) ∧ decodeTableWord 32 0xC7FE0125 = some (.trap 0x25)

/-! The step. -/

/-- R90: when the word at PC decodes to an instruction, the step is that instruction's meaning on the
state whose only change is PC advanced by 4. -/
def Obligations.StepRunsTheDecodedInstruction : Prop :=
  ∀ (s : State) (i : Instr), s.running = true → s.pc.toNat + 4 ≤ s.cfg.memSize →
    decode s.cfg.opc (BitVec.ofNat 32 (s.mem.loadLE s.pc.toNat 4)) = .ok i →
    step s = exec i s.advancePc ∧ s.advancePc.pc = s.pc + 4 ∧ WritesOnly s s.advancePc [.pc]

/-- R173: a fetch that does not fit raises OutOfBounds(PC) and leaves PC; one that fits fetches. -/
def Obligations.FetchOutOfBoundsHalts : Prop :=
  ∀ s : State, s.running = true →
    (s.cfg.memSize < s.pc.toNat + 4 → ∃ t, step s = .next t ∧ FaultsWith s t (.outOfBounds s.pc.toNat)) ∧
    (s.pc.toNat + 4 ≤ s.cfg.memSize → ∃ iw, s.fetch = .ok iw)

/-- R176: an opcode value outside the map raises UnknownOpcode with PC advanced, and does nothing else. -/
def Obligations.UnknownOpcodeHalts : Prop :=
  ∀ (s : State) (iw : Word), s.running = true → s.fetch = .ok iw →
    (∀ k, s.cfg.opc.opcodeOf k ≠ (fieldsOf iw).opc) →
    ∃ t, step s = .next t ∧ t.pc = s.pc + 4 ∧
      FaultsWith s.advancePc t (.unknownOpcode (fieldsOf iw).opc)

/-- "When `running` is false there is no step" (R90). That the model answers it with the fault `halted`
is the model's reading: log entry 3. -/
def Obligations.HaltedMachineHasNoStep : Prop :=
  ∀ s : State, s.running = false → step s = .fault .halted

/-- R207, R36: an ended run's state no longer changes, however many steps an executor allows. -/
def Obligations.EndedRunNoLongerChanges : Prop :=
  ∀ (s : State) (k : Nat), s.running = false → runFor k s = s

/-- A word placed where the machine fetches is the very next instruction (the model's own loading
operation, log entry 12). -/
def Obligations.PlacedWordIsTheNextInstruction : Prop :=
  ∀ (s : State) (w : Word) (i : Instr), s.running = true → s.pc.toNat + 4 ≤ s.cfg.memSize →
    decode s.cfg.opc w = .ok i →
    step (s.withFetchWord 32 w.toNat) = exec i (s.withFetchWord 32 w.toNat).advancePc

/-! Results of the instructions, with their frames. -/

/-- R100, R101, R102, R104 (the wrap is the spec's decision D2): the result modulo 2^32. -/
def Obligations.AddSubMulWriteTheWrappedResult : Prop :=
  ∀ (s : State) (r1 r2 : RegField) (imm : Imm) (d a : Reg), regOf r1 = some d → regOf r2 = some a →
    (∃ t v, exec (.add r1 r2 imm) s = .next t ∧ DestGets s t d v ∧
      v.toNat = ((s.reg a).toNat + imm.toNat) % 2 ^ 32) ∧
    (∃ t v, exec (.sub r1 r2 imm) s = .next t ∧ DestGets s t d v ∧
      (v.toNat : Int) = ((s.reg a).toNat - imm.toNat) % 2 ^ 32) ∧
    (∃ t v, exec (.mul r1 r2 imm) s = .next t ∧ DestGets s t d v ∧
      v.toNat = ((s.reg a).toNat * imm.toNat) % 2 ^ 32)

/-- R103, R35 (the signed dividend is the spec's decision D4, the order of the two writes D19): with a
nonzero immediate, the quotient and remainder of floor division, the remainder written last. -/
def Obligations.DivWritesFloorQuotientAndRemainder : Prop :=
  ∀ (s : State) (r1 r2 : RegField) (imm : Imm) (d a : Reg), regOf r1 = some d → regOf r2 = some a → imm ≠ 0 →
    ∃ (t : State) (q m : Int), exec (.div r1 r2 imm) s = .next t ∧
      (s.reg a).toInt = q * imm.toNat + m ∧ 0 ≤ m ∧ m < imm.toNat ∧
      (d ≠ .rem → d ≠ .cond → (t.reg d).toInt = q) ∧ (t.rem.toNat : Int) = m ∧
      CondShows t (if d = .rem then m else q) ∧ WritesOnly s t [d, .rem, .cond]

/-- R175: DIV with a zero immediate halts the run with REM, its destination and COND unchanged. -/
def Obligations.DivideByZeroHalts : Prop :=
  ∀ (s : State) (r1 r2 : RegField) (d a : Reg), regOf r1 = some d → regOf r2 = some a →
    ∃ t, exec (.div r1 r2 0) s = .next t ∧ FaultsWith s t .divideByZero

/-- R110 to R113: bit by bit, the immediate's upper 16 bits being zero. -/
def Obligations.LogicActsBitByBit : Prop :=
  ∀ (s : State) (r1 r2 : RegField) (imm : Imm) (d a : Reg), regOf r1 = some d → regOf r2 = some a →
    (∃ t v, exec (.and r1 r2 imm) s = .next t ∧ DestGets s t d v ∧
      ∀ k, k < 32 → v.getLsbD k = ((s.reg a).getLsbD k && imm.getLsbD k)) ∧
    (∃ t v, exec (.or r1 r2 imm) s = .next t ∧ DestGets s t d v ∧
      ∀ k, k < 32 → v.getLsbD k = ((s.reg a).getLsbD k || imm.getLsbD k)) ∧
    (∃ t v, exec (.xor r1 r2 imm) s = .next t ∧ DestGets s t d v ∧
      ∀ k, k < 32 → v.getLsbD k = ((s.reg a).getLsbD k != imm.getLsbD k)) ∧
    (∃ t v, exec (.not r1 r2) s = .next t ∧ DestGets s t d v ∧
      ∀ k, k < 32 → v.getLsbD k = !(s.reg a).getLsbD k)

/-- R114, R115 (that the amount is not masked is the spec's decision D5): logical shifts by the whole
16-bit amount. -/
def Obligations.ShiftsAreLogicalAndUnmasked : Prop :=
  ∀ (s : State) (r1 r2 : RegField) (imm : Imm) (d a : Reg), regOf r1 = some d → regOf r2 = some a →
    (∃ t v, exec (.shl r1 r2 imm) s = .next t ∧ DestGets s t d v ∧
      v.toNat = (s.reg a).toNat * 2 ^ imm.toNat % 2 ^ 32) ∧
    (∃ t v, exec (.shr r1 r2 imm) s = .next t ∧ DestGets s t d v ∧
      v.toNat = (s.reg a).toNat / 2 ^ imm.toNat)

/-- R120 to R123 (that GT and LT are signed is the spec's decision D4): COMP gets 1 or 0, and nothing else changes. -/
def Obligations.ComparesWriteCompOnly : Prop :=
  ∀ (s : State) (r1 r2 : RegField) (a b : Reg), regOf r1 = some a → regOf r2 = some b →
    (∃ t, exec (.cmpEq r1 r2) s = .next t ∧ WritesOnly s t [.comp] ∧
      t.comp.toNat = if (s.reg a).toNat = (s.reg b).toNat then 1 else 0) ∧
    (∃ t, exec (.cmpNeq r1 r2) s = .next t ∧ WritesOnly s t [.comp] ∧
      t.comp.toNat = if (s.reg a).toNat = (s.reg b).toNat then 0 else 1) ∧
    (∃ t, exec (.cmpGt r1 r2) s = .next t ∧ WritesOnly s t [.comp] ∧
      t.comp.toNat = if (s.reg b).toInt < (s.reg a).toInt then 1 else 0) ∧
    (∃ t, exec (.cmpLt r1 r2) s = .next t ∧ WritesOnly s t [.comp] ∧
      t.comp.toNat = if (s.reg a).toInt < (s.reg b).toInt then 1 else 0)

/-- R130, R134 (the immediate is zero-extended: D3): LOAD writes the literal, LEA the address PCn + offset
(wrapped: D2); neither reads or writes memory. -/
def Obligations.LoadAndLeaWriteTheirOperand : Prop :=
  ∀ (s : State) (r1 : RegField) (imm : Imm) (d : Reg), regOf r1 = some d →
    (∃ t v, exec (.load r1 imm) s = .next t ∧ DestGets s t d v ∧ v.toNat = imm.toNat) ∧
    (∃ t v, exec (.lea r1 imm) s = .next t ∧ DestGets s t d v ∧
      v.toNat = (s.pc.toNat + imm.toNat) % 2 ^ 32)

/-- R131: STORE writes the four bytes of its register at the absolute address, little-endian, at any
alignment, and nothing else. -/
def Obligations.StoreWritesFourBytes : Prop :=
  ∀ (s : State) (r1 : RegField) (imm : Imm) (r : Reg), regOf r1 = some r →
    absoluteAddr imm + 4 ≤ s.cfg.memSize →
    ∃ t, exec (.store r1 imm) s = .next t ∧ StoresOnly s t (absoluteAddr imm) 4 (s.reg r).toNat

/-- R132: LDI reads the pointer at PCn + offset, then the word it names. -/
def Obligations.LdiLoadsThroughThePointer : Prop :=
  ∀ (s : State) (r1 : RegField) (imm : Imm) (d : Reg), regOf r1 = some d →
    s.pc.toNat + imm.toNat + 4 ≤ s.cfg.memSize →
    s.mem.loadLE (s.pc.toNat + imm.toNat) 4 + 4 ≤ s.cfg.memSize →
    ∃ t v, exec (.ldi r1 imm) s = .next t ∧ DestGets s t d v ∧
      v.toNat = s.mem.loadLE (s.mem.loadLE (s.pc.toNat + imm.toNat) 4) 4

/-- R133: STI reads the pointer at PCn + offset and writes its register's four bytes where it points. -/
def Obligations.StiStoresThroughThePointer : Prop :=
  ∀ (s : State) (r1 : RegField) (imm : Imm) (r : Reg), regOf r1 = some r →
    pointerAddr s imm + 4 ≤ s.cfg.memSize → s.mem.loadLE (pointerAddr s imm) 4 + 4 ≤ s.cfg.memSize →
    ∃ t, exec (.sti r1 imm) s = .next t ∧
      StoresOnly s t (s.mem.loadLE (pointerAddr s imm) 4) 4 (s.reg r).toNat

/-- R174: a data access that does not fit raises OutOfBounds with the address of the rejected access and
changes no register and no byte; LDI and STI check the pointer cell first. -/
def Obligations.DataAccessOutOfBoundsHalts : Prop :=
  ∀ (s : State) (r1 : RegField) (imm : Imm) (r : Reg), regOf r1 = some r →
    (s.cfg.memSize < imm.toNat + 4 →
      ∃ t, exec (.store r1 imm) s = .next t ∧ FaultsWith s t (.outOfBounds imm.toNat)) ∧
    (s.cfg.memSize < s.pc.toNat + imm.toNat + 4 →
      (∃ t, exec (.ldi r1 imm) s = .next t ∧ FaultsWith s t (.outOfBounds (s.pc.toNat + imm.toNat))) ∧
      (∃ t, exec (.sti r1 imm) s = .next t ∧ FaultsWith s t (.outOfBounds (s.pc.toNat + imm.toNat)))) ∧
    (s.pc.toNat + imm.toNat + 4 ≤ s.cfg.memSize →
      s.cfg.memSize < s.mem.loadLE (s.pc.toNat + imm.toNat) 4 + 4 →
      (∃ t, exec (.ldi r1 imm) s = .next t ∧
        FaultsWith s t (.outOfBounds (s.mem.loadLE (s.pc.toNat + imm.toNat) 4))) ∧
      (∃ t, exec (.sti r1 imm) s = .next t ∧
        FaultsWith s t (.outOfBounds (s.mem.loadLE (s.pc.toNat + imm.toNat) 4))))

/-- R140, R141 (no sign extension: D3): the jumps write PC and nothing else. -/
def Obligations.JumpsWritePcOnly : Prop :=
  ∀ (s : State) (imm : Imm),
    (∃ t, exec (.jmpAbs imm) s = .next t ∧ WritesOnly s t [.pc] ∧ t.pc.toNat = imm.toNat) ∧
    (∃ t, exec (.jmpRel imm) s = .next t ∧ WritesOnly s t [.pc] ∧
      t.pc.toNat = (s.pc.toNat + imm.toNat) % 2 ^ 32)

/-- R142, R157: HALT and the halt trap clear `running`, report nothing and change nothing else. -/
def Obligations.HaltAndHaltTrapClearRunning : Prop :=
  ∀ (s : State) (i : Instr),
    i = .halt ∨ (i = .trap s.cfg.trapHaltVec ∧ s.cfg.trapHaltVec ≠ 0x20 ∧ s.cfg.trapHaltVec ≠ 0x21) →
    ∃ t, exec i s = .next t ∧ t.running = false ∧ SameRegsBut s t [] ∧ SameMemory s t ∧ SameBoundary s t

/-- R150 (the port's 32-bit answers are the spec's decision D20): INPUT takes the next answer and writes it, with flags. -/
def Obligations.InputWritesTheAnswer : Prop :=
  ∀ (s : State) (r1 : RegField) (d : Reg) (v : Word) (rest : List IntAnswer), regOf r1 = some d →
    s.intIn = .value v :: rest →
    ∃ t, exec (.input r1) s = .next t ∧ t.intIn = rest ∧ DestGets { s with intIn := rest } t d v

/-- R151, R179 (the spec's decision D20; that the answer is consumed is log entry 7): a malformed answer
halts the run with no register changed. -/
def Obligations.MalformedInputHalts : Prop :=
  ∀ (s : State) (r1 : RegField) (d : Reg) (rest : List IntAnswer), regOf r1 = some d →
    s.intIn = .malformed :: rest →
    ∃ t, exec (.input r1) s = .next t ∧ t.intIn = rest ∧
      FaultsWith { s with intIn := rest } t .malformedInput

/-- R192: a running machine's step has no successor exactly while INPUT or trap 0x20 waits. However many
steps an executor allows, the waiting state is held; the run has neither halted nor faulted; an answer
of the kind asked for lifts the wait, and an answer of the other kind does not. -/
def Obligations.WaitingStepHasNoSuccessor : Prop :=
  ∀ s : State, s.running = true →
    ((¬ ∃ t, step s = .next t) ↔ ∃ i, Runs s i ∧ Waits i s) ∧
    ∀ i, Runs s i → Waits i s →
      (∀ k, runFor k s = s) ∧ s.ending = none ∧
      (∀ f, i = .input f →
        (∀ a, ∃ t, step (s.supplyInt a) = .next t) ∧ ∀ c, ¬ ∃ t, step (s.supplyChar c) = .next t) ∧
      (i = .trap 0x20 →
        (∀ c, ∃ t, step (s.supplyChar c) = .next t) ∧ ∀ a, ¬ ∃ t, step (s.supplyInt a) = .next t)

/-- R156: OUTPUT emits the field's index and the register's value, and changes nothing else. -/
def Obligations.OutputEmitsTheRegister : Prop :=
  ∀ (s : State) (r1 : RegField) (r : Reg), regOf r1 = some r →
    ∃ t, exec (.output r1) s = .next t ∧ t.trace = s.trace ++ [.outInt r1 (s.reg r)] ∧
      SameRegsBut s t [] ∧ SameMemory s t ∧ t.running = s.running ∧
      t.cfg = s.cfg ∧ t.intIn = s.intIn ∧ t.charIn = s.charIn

/-- R154, R153: trap 0x20 overwrites R0 with the character, below 2^CHAR_IN_BITS, and touches no flag. A
character in range arrives as it is; that the port passes the low bits only is the model's (log entry 6). -/
def Obligations.CharacterInputOverwritesR0 : Prop :=
  ∀ (s : State) (c : Word) (rest : List Word), s.charIn = c :: rest →
    ∃ t, exec (.trap 0x20) s = .next t ∧ t.charIn = rest ∧
      (t.reg (.gpr 0)).toNat < 2 ^ s.cfg.charInBits ∧
      (c.toNat < 2 ^ s.cfg.charInBits → t.reg (.gpr 0) = c) ∧
      SameRegsBut s t [.gpr 0] ∧ SameMemory s t ∧ t.running = s.running ∧
      t.cfg = s.cfg ∧ t.intIn = s.intIn ∧ t.trace = s.trace

/-- R155: trap 0x21 emits the low 8 bits of R0 and changes nothing else. -/
def Obligations.CharacterOutputEmitsLowByteOfR0 : Prop :=
  ∀ s : State, ∃ (t : State) (b : Byte), exec (.trap 0x21) s = .next t ∧
    t.trace = s.trace ++ [.outChar b] ∧ b.toNat = (s.reg (.gpr 0)).toNat % 256 ∧
    SameRegsBut s t [] ∧ SameMemory s t ∧ t.running = s.running ∧
    t.cfg = s.cfg ∧ t.intIn = s.intIn ∧ t.charIn = s.charIn

/-- R158, R177: an unknown vector is reported and nothing else happens; the run goes on at PCn. -/
def Obligations.UnknownTrapVectorIsReportedOnly : Prop :=
  ∀ (s : State) (vec : TrapVec), vec ≠ 0x20 → vec ≠ 0x21 → vec ≠ s.cfg.trapHaltVec →
    ∃ t, exec (.trap vec) s = .next t ∧ t.trace = s.trace ++ [.diag (.unknownTrapVector vec)] ∧
      SameRegsBut s t [] ∧ SameMemory s t ∧ t.running = s.running ∧
      t.cfg = s.cfg ∧ t.intIn = s.intIn ∧ t.charIn = s.charIn

/-! Rules over all instructions. -/

/-- R178, R91, R180 (the spec's decisions D8, D18): the first used register field of 20 or more halts the
run before anything else the instruction does. -/
def Obligations.InvalidRegisterIsRaisedFirst : Prop :=
  ∀ (i : Instr) (s : State) (f : RegField), (usedRegs i).find? (fun g => decide (20 ≤ g.toNat)) = some f →
    ∃ t, exec i s = .next t ∧ FaultsWith s t (.invalidRegister f)

/-- R91, R171, R192: in every state an instruction answers a next state, or it waits for an input answer
and then answers `awaitingInput` (the model's word for "no successor": log entry 5). -/
def Obligations.EveryInstructionCompletesUnlessItWaits : Prop :=
  ∀ (i : Instr) (s : State),
    (¬ Waits i s → ∃ t, exec i s = .next t) ∧ (Waits i s → exec i s = .fault .awaitingInput)

/-- R21, R30, R32, R34, R143, R153: an instruction changes no register but those it may write; the 11 without a destination never write COND. -/
def Obligations.OnlyNamedRegistersChange : Prop :=
  ∀ (i : Instr) (s t : State), exec i s = .next t → SameRegsBut s t (writtenRegs i)

/-- R59, R54: memory changes only by STORE and STI, and only in the four bytes at the address each computes. -/
def Obligations.OnlyStoresChangeMemory : Prop :=
  ∀ (i : Instr) (s t : State), exec i s = .next t →
    ∀ a, (∀ e, storeAddr i s = some e → a < e ∨ e + 4 ≤ a) → t.mem.readByte a = s.mem.readByte a

/-- R42, R43, R44, R46, R180: in one step the parameters stay, at most one event is emitted, at most one
answer is taken, an integer only by INPUT and a character only by TRAP 0x20; only OUTPUT and TRAP 0x21
emit anything but a diagnostic. -/
def Obligations.OneEventAndOneInputAtMost : Prop :=
  ∀ s t : State, step s = .next t →
    t.cfg = s.cfg ∧
    (t.trace = s.trace ∨ ∃ e, t.trace = s.trace ++ [e] ∧
      ((∃ d, e = .diag d) ∨ (∃ f, Runs s (.output f)) ∨ Runs s (.trap 0x21))) ∧
    (t.intIn = s.intIn ∨ (∃ f, Runs s (.input f)) ∧ ∃ a, s.intIn = a :: t.intIn) ∧
    (t.charIn = s.charIn ∨ Runs s (.trap 0x20) ∧ ∃ c, s.charIn = c :: t.charIn)

/-- R143, R28: the complete list of ways PC is not simply advanced. -/
def Obligations.PcLeavesSequenceOnlyByJumps : Prop :=
  ∀ s t : State, step s = .next t → t.pc ≠ s.pc + 4 →
    (s.cfg.memSize < s.pc.toNat + 4 ∧ t.pc = s.pc) ∨
    ∃ i, Runs s i ∧ .pc ∈ writtenRegs i

/-- R124: after a compare COMP is 0 or 1 and COND is what it was; no flag update changes COMP; and COMP
keeps its value through every other instruction that does not name register 19 as its destination. -/
def Obligations.CompKeepsTheLastCompare : Prop :=
  (∀ (s : State) (r : Reg), (s.setFlags r).comp = s.comp) ∧
  ∀ (i : Instr) (s t : State), exec i s = .next t →
    ((∃ r1 r2 a b, (i = .cmpEq r1 r2 ∨ i = .cmpNeq r1 r2 ∨ i = .cmpGt r1 r2 ∨ i = .cmpLt r1 r2) ∧
        regOf r1 = some a ∧ regOf r2 = some b) →
      (t.comp = 0 ∨ t.comp = 1) ∧ t.cond = s.cond) ∧
    ((∀ r1 r2, i ≠ .cmpEq r1 r2 ∧ i ≠ .cmpNeq r1 r2 ∧ i ≠ .cmpGt r1 r2 ∧ i ≠ .cmpLt r1 r2) →
      destField i ≠ some 19 → t.comp = s.comp)

/-- R33 (conflict C1): COMP stays 0 or 1 over every step that does not name register 19 as its destination. -/
def Obligations.CompStaysBoolean : Prop :=
  ∀ s t : State, step s = .next t → (s.comp = 0 ∨ s.comp = 1) →
    (∀ i, Runs s i → destField i ≠ some 19) → t.comp = 0 ∨ t.comp = 1

/-- R62: the word a STORE or STI puts at PCn is the word the next step fetches. -/
def Obligations.StoredInstructionIsFetchedNext : Prop :=
  ∀ (i : Instr) (s t : State) (r1 : RegField) (imm : Imm) (r : Reg), i = .store r1 imm ∨ i = .sti r1 imm →
    regOf r1 = some r → exec i s = .next t → t.running = true → s.running = true →
    storeAddr i s = some s.pc.toNat → t.fetch = .ok (s.reg r)

/-- R170 (with the spec's decisions D8, D20): a step clears `running` by HALT or the halt trap, silently,
or by one fatal diagnostic; and a fatal diagnostic always clears it. -/
def Obligations.OnlyHaltsAndFatalFaultsEndARun : Prop :=
  ∀ s t : State, step s = .next t →
    (t.running = false →
      ((Runs s .halt ∨ Runs s (.trap s.cfg.trapHaltVec)) ∧ t.trace = s.trace) ∨
      ∃ d, d.fatal = true ∧ t.trace = s.trace ++ [.diag d]) ∧
    (∀ d, d.fatal = true → t.trace = s.trace ++ [.diag d] → t.running = false)

/-- R181 (the spec's decision D16): after a fatal fault the state is the state before the step but for
`running`, the diagnostic, and PC advanced unless the fetch failed. (A malformed answer is taken: log entry 7.) -/
def Obligations.FatalFaultsArePrecise : Prop :=
  ∀ (s t : State) (d : Diag), step s = .next t → d.fatal = true → t.trace = s.trace ++ [.diag d] →
    t.running = false ∧
    t.pc = (if s.cfg.memSize < s.pc.toNat + 4 then s.pc else s.pc + 4) ∧
    SameRegsBut s t [.pc] ∧ SameMemory s t ∧ t.cfg = s.cfg ∧ t.charIn = s.charIn ∧
    (t.intIn = s.intIn ∨ (d = .malformedInput ∧ s.intIn = .malformed :: t.intIn))

/-- R208, over states that meet the invariant: the ending a run's last state shows is the fatal fault of
the last step, or normal when it reported none. -/
def Obligations.EndingIsTheLastStepsFault : Prop :=
  ∀ s t : State, s.Inv → step s = .next t → t.running = false →
    (∀ d, t.ending = some (.faulted d) ↔ (d.fatal = true ∧ t.trace = s.trace ++ [.diag d])) ∧
    (t.ending = some .normal ↔ t.trace = s.trace)

/-! Memory. -/

/-- R53, R52: a read of `n` bytes that fits gives the number whose base-256 digits are those bytes, lowest
address first; one that does not fit raises OutOfBounds(addr). -/
def Obligations.MemReadIsLittleEndian : Prop :=
  ∀ (s : State) (addr n : Nat),
    (addr + n ≤ s.cfg.memSize → ∃ v, s.memRead addr n = .ok v ∧ v < 2 ^ (8 * n) ∧
      ∀ k, k < n → v / 256 ^ k % 256 = (s.mem.readByte (addr + k)).toNat) ∧
    (s.cfg.memSize < addr + n → s.memRead addr n = .error (.outOfBounds addr))

/-- R54, R52: a write of `n` bytes that fits changes exactly those bytes; one that does not fit raises
OutOfBounds(addr) and gives no state. -/
def Obligations.MemWriteChangesExactlyItsBytes : Prop :=
  ∀ (s : State) (addr n v : Nat),
    (addr + n ≤ s.cfg.memSize → ∃ t, s.memWrite addr n v = .ok t ∧ StoresOnly s t addr n v) ∧
    (s.cfg.memSize < addr + n → s.memWrite addr n v = .error (.outOfBounds addr))

/-- R55: a stored 4-byte value loads back. -/
def Obligations.StoreThenLoadReturnsTheValue : Prop :=
  ∀ (s : State) (addr v : Nat), addr + 4 ≤ s.cfg.memSize → v < 2 ^ 32 →
    ∃ t, s.memWrite addr 4 v = .ok t ∧ t.memRead addr 4 = .ok v

/-! Reset and invariants. -/

/-- R37, R200: after reset every register is 0 and no output has been emitted. -/
def Obligations.ResetClearsTheRegisters : Prop :=
  (∀ r : Reg, State.reset.reg r = 0) ∧ State.reset.trace = []

/-- The model's reset state meets the invariant. (Its memory, parameters and inputs are the model's
choices: log entries 1, 4, 10, 11.) -/
def Obligations.ResetMeetsTheInvariant : Prop := State.reset.Inv

/-- Every step keeps the invariant: legal parameters, canonical memory inside [0, MEM_SIZE) (R50, R52),
COND zero or one of its three patterns (R31), a fatal diagnostic only as the last event of an ended run (R171). -/
def Obligations.StepKeepsTheInvariant : Prop :=
  ∀ s t : State, s.Inv → step s = .next t → t.Inv

/-! Independence. -/

/-- R42: the output is never read: a step does the same whatever was emitted before. -/
def Obligations.OutputIsNeverRead : Prop :=
  ∀ (s t : State) (earlier : List Event), step s = .next t →
    step { s with trace := earlier ++ s.trace } = .next { t with trace := earlier ++ t.trace }

/-- R43, R44, R184: what the input source has still to answer matters to INPUT and TRAP 0x20 alone. -/
def Obligations.PendingInputMattersToInputOnly : Prop :=
  ∀ (s t : State) (ints : List IntAnswer) (chars : List Word), step s = .next t →
    (∀ f, ¬ Runs s (.input f)) → ¬ Runs s (.trap 0x20) →
    step { s with intIn := ints, charIn := chars } = .next { t with intIn := ints, charIn := chars }
end

