-- ==== Sys2Proof/Laws/Decode.lean ====
section
/-! SUPPORT. The laws of the instruction word: packing and extracting fields, looking an opcode up. -/

namespace Sys2Proof

/-- The number of a packed word (R88): the fields do not overlap and fill the 32 bits. -/
theorem toNat_packFields (f : Fields) :
    (packFields f).toNat =
      f.opc.toNat * 2 ^ 27 + f.r1.toNat * 2 ^ 22 + f.r2.toNat * 2 ^ 17 + f.imm.toNat := by
  have ho := f.opc.isLt
  have h1 := f.r1.isLt
  have h2 := f.r2.isLt
  have hi := f.imm.isLt
  rw [packFields, BitVec.toNat_ofNat]
  exact Nat.mod_eq_of_lt (by omega)

/-- Extraction undoes packing: no bit of a field is dropped (R88). -/
@[simp] theorem fieldsOf_packFields (f : Fields) : fieldsOf (packFields f) = f := by
  have ho := f.opc.isLt
  have h1 := f.r1.isLt
  have h2 := f.r2.isLt
  have hi := f.imm.isLt
  have hn := toNat_packFields f
  generalize packFields f = w at *
  obtain ⟨o, r1, r2, imm⟩ := f
  refine (Fields.mk.injEq ..).mpr ⟨?_, ?_, ?_, ?_⟩ <;> apply BitVec.eq_of_toNat_eq <;>
    rw [BitVec.extractLsb'_toNat, Nat.shiftRight_eq_div_pow] <;> simp only at * <;> omega

/-- Every mnemonic is in the catalogue. -/
theorem Mnemonic.mem_all (k : Mnemonic) : k ∈ Mnemonic.all := by
  cases k <;> decide

/-- Looking an opcode up gives a mnemonic that has it. -/
theorem OpcodeMap.lookup_some {m : OpcodeMap} {o : Opcode} {k : Mnemonic} (h : m.lookup o = some k) :
    m.opcodeOf k = o := by
  simpa using List.find?_some h

/-- An opcode is found exactly when the map assigns it (R82, R83). -/
theorem OpcodeMap.lookup_none_iff {m : OpcodeMap} {o : Opcode} :
    m.lookup o = none ↔ ∀ k, m.opcodeOf k ≠ o := by
  simp [OpcodeMap.lookup, Mnemonic.mem_all]

end Sys2Proof
end

