-- ==== Sys2Proof/Laws/State.lean ====
section
/-! SUPPORT. One lemma per field per update of State, so that no later proof unfolds a record update,
and the laws of reading a register after writing one. -/

namespace Sys2Proof.Machine

/-! A register's value is its field. -/

@[simp] theorem State.reg_gpr (s : State) (i : Fin 16) : s.reg (.gpr i) = s.gprs[i] := rfl
@[simp] theorem State.reg_pc (s : State) : s.reg .pc = s.pc := rfl
@[simp] theorem State.reg_rem (s : State) : s.reg .rem = s.rem := rfl
@[simp] theorem State.reg_cond (s : State) : s.reg .cond = s.cond := rfl
@[simp] theorem State.reg_comp (s : State) : s.reg .comp = s.comp := rfl

/-! setReg. -/

@[simp] theorem State.setReg_gpr_gprs (s : State) (i : Fin 16) (v : Word) : (s.setReg (.gpr i) v).gprs = s.gprs.set i v := rfl
@[simp] theorem State.setReg_gpr_pc (s : State) (i : Fin 16) (v : Word) : (s.setReg (.gpr i) v).pc = s.pc := rfl
@[simp] theorem State.setReg_gpr_rem (s : State) (i : Fin 16) (v : Word) : (s.setReg (.gpr i) v).rem = s.rem := rfl
@[simp] theorem State.setReg_gpr_cond (s : State) (i : Fin 16) (v : Word) : (s.setReg (.gpr i) v).cond = s.cond := rfl
@[simp] theorem State.setReg_gpr_comp (s : State) (i : Fin 16) (v : Word) : (s.setReg (.gpr i) v).comp = s.comp := rfl
@[simp] theorem State.setReg_pc_gprs (s : State) (v : Word) : (s.setReg (.pc) v).gprs = s.gprs := rfl
@[simp] theorem State.setReg_pc_pc (s : State) (v : Word) : (s.setReg (.pc) v).pc = v := rfl
@[simp] theorem State.setReg_pc_rem (s : State) (v : Word) : (s.setReg (.pc) v).rem = s.rem := rfl
@[simp] theorem State.setReg_pc_cond (s : State) (v : Word) : (s.setReg (.pc) v).cond = s.cond := rfl
@[simp] theorem State.setReg_pc_comp (s : State) (v : Word) : (s.setReg (.pc) v).comp = s.comp := rfl
@[simp] theorem State.setReg_rem_gprs (s : State) (v : Word) : (s.setReg (.rem) v).gprs = s.gprs := rfl
@[simp] theorem State.setReg_rem_pc (s : State) (v : Word) : (s.setReg (.rem) v).pc = s.pc := rfl
@[simp] theorem State.setReg_rem_rem (s : State) (v : Word) : (s.setReg (.rem) v).rem = v := rfl
@[simp] theorem State.setReg_rem_cond (s : State) (v : Word) : (s.setReg (.rem) v).cond = s.cond := rfl
@[simp] theorem State.setReg_rem_comp (s : State) (v : Word) : (s.setReg (.rem) v).comp = s.comp := rfl
@[simp] theorem State.setReg_cond_gprs (s : State) (v : Word) : (s.setReg (.cond) v).gprs = s.gprs := rfl
@[simp] theorem State.setReg_cond_pc (s : State) (v : Word) : (s.setReg (.cond) v).pc = s.pc := rfl
@[simp] theorem State.setReg_cond_rem (s : State) (v : Word) : (s.setReg (.cond) v).rem = s.rem := rfl
@[simp] theorem State.setReg_cond_cond (s : State) (v : Word) : (s.setReg (.cond) v).cond = v := rfl
@[simp] theorem State.setReg_cond_comp (s : State) (v : Word) : (s.setReg (.cond) v).comp = s.comp := rfl
@[simp] theorem State.setReg_comp_gprs (s : State) (v : Word) : (s.setReg (.comp) v).gprs = s.gprs := rfl
@[simp] theorem State.setReg_comp_pc (s : State) (v : Word) : (s.setReg (.comp) v).pc = s.pc := rfl
@[simp] theorem State.setReg_comp_rem (s : State) (v : Word) : (s.setReg (.comp) v).rem = s.rem := rfl
@[simp] theorem State.setReg_comp_cond (s : State) (v : Word) : (s.setReg (.comp) v).cond = s.cond := rfl
@[simp] theorem State.setReg_comp_comp (s : State) (v : Word) : (s.setReg (.comp) v).comp = v := rfl
@[simp] theorem State.setReg_cfg (s : State) (r : Reg) (v : Word) : (s.setReg r v).cfg = s.cfg := by cases r <;> rfl
@[simp] theorem State.setReg_mem (s : State) (r : Reg) (v : Word) : (s.setReg r v).mem = s.mem := by cases r <;> rfl
@[simp] theorem State.setReg_running (s : State) (r : Reg) (v : Word) : (s.setReg r v).running = s.running := by cases r <;> rfl
@[simp] theorem State.setReg_intIn (s : State) (r : Reg) (v : Word) : (s.setReg r v).intIn = s.intIn := by cases r <;> rfl
@[simp] theorem State.setReg_charIn (s : State) (r : Reg) (v : Word) : (s.setReg r v).charIn = s.charIn := by cases r <;> rfl
@[simp] theorem State.setReg_trace (s : State) (r : Reg) (v : Word) : (s.setReg r v).trace = s.trace := by cases r <;> rfl

@[simp] theorem State.reg_setReg_same (s : State) (r : Reg) (v : Word) : (s.setReg r v).reg r = v := by
  cases r <;> simp

@[simp] theorem State.reg_setReg_ne (s : State) {r r' : Reg} (v : Word) (h : r' ≠ r) :
    (s.setReg r v).reg r' = s.reg r' := by
  cases r <;> cases r' <;> simp_all [Fin.ext_iff, eq_comm]

/-- Reading a register after writing one. -/
theorem State.reg_setReg (s : State) (r r' : Reg) (v : Word) :
    (s.setReg r v).reg r' = if r' = r then v else s.reg r' := by
  by_cases h : r' = r <;> simp [h]

/-! setFlags, writeDest, setComp. -/

@[simp] theorem State.setFlags_cfg (s : State) (i : Reg) : (s.setFlags i).cfg = s.cfg := by simp [State.setFlags]
@[simp] theorem State.setFlags_mem (s : State) (i : Reg) : (s.setFlags i).mem = s.mem := by simp [State.setFlags]
@[simp] theorem State.setFlags_running (s : State) (i : Reg) : (s.setFlags i).running = s.running := by simp [State.setFlags]
@[simp] theorem State.setFlags_intIn (s : State) (i : Reg) : (s.setFlags i).intIn = s.intIn := by simp [State.setFlags]
@[simp] theorem State.setFlags_charIn (s : State) (i : Reg) : (s.setFlags i).charIn = s.charIn := by simp [State.setFlags]
@[simp] theorem State.setFlags_trace (s : State) (i : Reg) : (s.setFlags i).trace = s.trace := by simp [State.setFlags]
@[simp] theorem State.writeDest_cfg (s : State) (d : Reg) (v : Word) : (s.writeDest d v).cfg = s.cfg := by simp [State.writeDest]
@[simp] theorem State.writeDest_mem (s : State) (d : Reg) (v : Word) : (s.writeDest d v).mem = s.mem := by simp [State.writeDest]
@[simp] theorem State.writeDest_running (s : State) (d : Reg) (v : Word) : (s.writeDest d v).running = s.running := by simp [State.writeDest]
@[simp] theorem State.writeDest_intIn (s : State) (d : Reg) (v : Word) : (s.writeDest d v).intIn = s.intIn := by simp [State.writeDest]
@[simp] theorem State.writeDest_charIn (s : State) (d : Reg) (v : Word) : (s.writeDest d v).charIn = s.charIn := by simp [State.writeDest]
@[simp] theorem State.writeDest_trace (s : State) (d : Reg) (v : Word) : (s.writeDest d v).trace = s.trace := by simp [State.writeDest]
@[simp] theorem State.setComp_cfg (s : State) (b : Bool) : (s.setComp b).cfg = s.cfg := by simp [State.setComp]
@[simp] theorem State.setComp_mem (s : State) (b : Bool) : (s.setComp b).mem = s.mem := by simp [State.setComp]
@[simp] theorem State.setComp_running (s : State) (b : Bool) : (s.setComp b).running = s.running := by simp [State.setComp]
@[simp] theorem State.setComp_intIn (s : State) (b : Bool) : (s.setComp b).intIn = s.intIn := by simp [State.setComp]
@[simp] theorem State.setComp_charIn (s : State) (b : Bool) : (s.setComp b).charIn = s.charIn := by simp [State.setComp]
@[simp] theorem State.setComp_trace (s : State) (b : Bool) : (s.setComp b).trace = s.trace := by simp [State.setComp]

@[simp] theorem State.reg_setComp_comp (s : State) (b : Bool) :
    (s.setComp b).reg .comp = if b then 1 else 0 := rfl

@[simp] theorem State.reg_setComp_ne (s : State) (b : Bool) {r : Reg} (h : r ≠ .comp) :
    (s.setComp b).reg r = s.reg r := by
  simp [State.setComp, h]

@[simp] theorem State.reg_setFlags_cond (s : State) (i : Reg) :
    (s.setFlags i).reg .cond = zext32 (condPattern s.cfg (s.reg i)) := rfl

@[simp] theorem State.reg_setFlags_ne (s : State) (i : Reg) {r : Reg} (h : r ≠ .cond) :
    (s.setFlags i).reg r = s.reg r := by
  simp [State.setFlags, h]

/-- What writeDest does to COND: the pattern of the value written. -/
@[simp] theorem State.reg_writeDest_cond (s : State) (d : Reg) (v : Word) :
    (s.writeDest d v).reg .cond = zext32 (condPattern s.cfg v) := by
  simp only [State.writeDest, State.reg_setFlags_cond, State.reg_setReg_same, State.setReg_cfg]

/-- What writeDest does to its destination, unless that is COND. -/
theorem State.reg_writeDest_dest (s : State) {d : Reg} (v : Word) (h : d ≠ .cond) :
    (s.writeDest d v).reg d = v := by
  simp [State.writeDest, h]

/-- writeDest's frame. -/
theorem State.reg_writeDest_ne (s : State) {d r : Reg} (v : Word) (h : r ≠ d) (hc : r ≠ .cond) :
    (s.writeDest d v).reg r = s.reg r := by
  simp [State.writeDest, h, hc]

/-! emit, stop, advancePc. -/

@[simp] theorem State.emit_cfg (s : State) (e : Event) : (s.emit e).cfg = s.cfg := rfl
@[simp] theorem State.emit_gprs (s : State) (e : Event) : (s.emit e).gprs = s.gprs := rfl
@[simp] theorem State.emit_pc (s : State) (e : Event) : (s.emit e).pc = s.pc := rfl
@[simp] theorem State.emit_rem (s : State) (e : Event) : (s.emit e).rem = s.rem := rfl
@[simp] theorem State.emit_cond (s : State) (e : Event) : (s.emit e).cond = s.cond := rfl
@[simp] theorem State.emit_comp (s : State) (e : Event) : (s.emit e).comp = s.comp := rfl
@[simp] theorem State.emit_mem (s : State) (e : Event) : (s.emit e).mem = s.mem := rfl
@[simp] theorem State.emit_running (s : State) (e : Event) : (s.emit e).running = s.running := rfl
@[simp] theorem State.emit_intIn (s : State) (e : Event) : (s.emit e).intIn = s.intIn := rfl
@[simp] theorem State.emit_charIn (s : State) (e : Event) : (s.emit e).charIn = s.charIn := rfl
@[simp] theorem State.emit_trace (s : State) (e : Event) : (s.emit e).trace = s.trace ++ [e] := rfl
@[simp] theorem State.emit_reg (s : State) (e : Event) (r : Reg) : (s.emit e).reg r = s.reg r := by cases r <;> rfl
@[simp] theorem State.stop_cfg (s : State) : (s.stop).cfg = s.cfg := rfl
@[simp] theorem State.stop_gprs (s : State) : (s.stop).gprs = s.gprs := rfl
@[simp] theorem State.stop_pc (s : State) : (s.stop).pc = s.pc := rfl
@[simp] theorem State.stop_rem (s : State) : (s.stop).rem = s.rem := rfl
@[simp] theorem State.stop_cond (s : State) : (s.stop).cond = s.cond := rfl
@[simp] theorem State.stop_comp (s : State) : (s.stop).comp = s.comp := rfl
@[simp] theorem State.stop_mem (s : State) : (s.stop).mem = s.mem := rfl
@[simp] theorem State.stop_running (s : State) : (s.stop).running = false := rfl
@[simp] theorem State.stop_intIn (s : State) : (s.stop).intIn = s.intIn := rfl
@[simp] theorem State.stop_charIn (s : State) : (s.stop).charIn = s.charIn := rfl
@[simp] theorem State.stop_trace (s : State) : (s.stop).trace = s.trace := rfl
@[simp] theorem State.stop_reg (s : State) (r : Reg) : (s.stop).reg r = s.reg r := by cases r <;> rfl
@[simp] theorem State.advancePc_cfg (s : State) : (s.advancePc).cfg = s.cfg := rfl
@[simp] theorem State.advancePc_gprs (s : State) : (s.advancePc).gprs = s.gprs := rfl
@[simp] theorem State.advancePc_pc (s : State) : (s.advancePc).pc = s.pc + 4 := rfl
@[simp] theorem State.advancePc_rem (s : State) : (s.advancePc).rem = s.rem := rfl
@[simp] theorem State.advancePc_cond (s : State) : (s.advancePc).cond = s.cond := rfl
@[simp] theorem State.advancePc_comp (s : State) : (s.advancePc).comp = s.comp := rfl
@[simp] theorem State.advancePc_mem (s : State) : (s.advancePc).mem = s.mem := rfl
@[simp] theorem State.advancePc_running (s : State) : (s.advancePc).running = s.running := rfl
@[simp] theorem State.advancePc_intIn (s : State) : (s.advancePc).intIn = s.intIn := rfl
@[simp] theorem State.advancePc_charIn (s : State) : (s.advancePc).charIn = s.charIn := rfl
@[simp] theorem State.advancePc_trace (s : State) : (s.advancePc).trace = s.trace := rfl

@[simp] theorem State.advancePc_reg_ne (s : State) {r : Reg} (h : r ≠ .pc) : s.advancePc.reg r = s.reg r := by
  cases r <;> simp_all

/-! raise. -/

@[simp] theorem State.raise_cfg (s : State) (d : Diag) : (s.raise d).cfg = s.cfg := by cases d <;> rfl
@[simp] theorem State.raise_gprs (s : State) (d : Diag) : (s.raise d).gprs = s.gprs := by cases d <;> rfl
@[simp] theorem State.raise_pc (s : State) (d : Diag) : (s.raise d).pc = s.pc := by cases d <;> rfl
@[simp] theorem State.raise_rem (s : State) (d : Diag) : (s.raise d).rem = s.rem := by cases d <;> rfl
@[simp] theorem State.raise_cond (s : State) (d : Diag) : (s.raise d).cond = s.cond := by cases d <;> rfl
@[simp] theorem State.raise_comp (s : State) (d : Diag) : (s.raise d).comp = s.comp := by cases d <;> rfl
@[simp] theorem State.raise_mem (s : State) (d : Diag) : (s.raise d).mem = s.mem := by cases d <;> rfl
@[simp] theorem State.raise_running (s : State) (d : Diag) : (s.raise d).running = (s.running && !d.fatal) := by
  cases d <;> simp [State.raise, Diag.fatal]
@[simp] theorem State.raise_intIn (s : State) (d : Diag) : (s.raise d).intIn = s.intIn := by cases d <;> rfl
@[simp] theorem State.raise_charIn (s : State) (d : Diag) : (s.raise d).charIn = s.charIn := by cases d <;> rfl
@[simp] theorem State.raise_trace (s : State) (d : Diag) : (s.raise d).trace = s.trace ++ [.diag d] := by
  cases d <;> rfl
@[simp] theorem State.raise_reg (s : State) (d : Diag) (r : Reg) : (s.raise d).reg r = s.reg r := by
  cases r <;> simp

end Sys2Proof.Machine
end

