-- ==== Sys2Proof/Laws/Memory.lean ====
section
/-! SUPPORT. The laws of memory: reading after writing, and that every operation keeps the canonical
form and the bounds (20_memory.md R50 to R55). -/

namespace Sys2Proof.Machine

theorem Memory.readByte_insertCell_same (a : Nat) (v : Byte) (m : Memory) (h : ∀ c ∈ m, c.1 ≠ a) :
    Memory.readByte (Memory.insertCell a v m) a = v := by
  induction m with
  | nil => simp [Memory.insertCell, Memory.readByte]
  | cons c rest ih =>
    by_cases hlt : a < c.1
    · simp [Memory.insertCell, hlt, Memory.readByte]
    · have hc : c.1 ≠ a := h c (by simp)
      simp [Memory.insertCell, hlt, Memory.readByte, hc, ih fun c hc => h c (by simp [hc])]

theorem Memory.readByte_insertCell_ne {a b : Nat} (v : Byte) (m : Memory) (h : b ≠ a) :
    Memory.readByte (Memory.insertCell a v m) b = Memory.readByte m b := by
  induction m with
  | nil => simp [Memory.insertCell, Memory.readByte, Ne.symm h]
  | cons c rest ih =>
    by_cases hlt : a < c.1
    · simp [Memory.insertCell, hlt, Memory.readByte, Ne.symm h]
    · simp [Memory.insertCell, hlt, Memory.readByte, ih]

theorem Memory.readByte_filter_same (a : Nat) (m : Memory) :
    Memory.readByte (m.filter fun c => c.1 != a) a = Memory.fill := by
  induction m with
  | nil => rfl
  | cons c rest ih => by_cases hc : c.1 = a <;> simp_all [Memory.readByte]

theorem Memory.readByte_filter_ne {a b : Nat} (m : Memory) (h : b ≠ a) :
    Memory.readByte (m.filter fun c => c.1 != a) b = Memory.readByte m b := by
  induction m with
  | nil => rfl
  | cons c rest ih =>
    by_cases hc : c.1 = a
    · have : c.1 ≠ b := fun e => h (e ▸ hc)
      simp_all [Memory.readByte]
    · simp_all [Memory.readByte]

/-- A byte reads back as it was written. -/
@[simp] theorem Memory.readByte_writeByte_same (m : Memory) (a : Nat) (v : Byte) :
    (m.writeByte a v).readByte a = v := by
  unfold Memory.writeByte
  split
  · simp [Memory.readByte_filter_same, *]
  · exact Memory.readByte_insertCell_same a v _ (by simp)

/-- A write leaves every other byte alone. -/
theorem Memory.readByte_writeByte_ne {a b : Nat} (m : Memory) (v : Byte) (h : b ≠ a) :
    (m.writeByte a v).readByte b = m.readByte b := by
  unfold Memory.writeByte
  split
  · exact Memory.readByte_filter_ne m h
  · rw [Memory.readByte_insertCell_ne v _ h, Memory.readByte_filter_ne m h]

theorem Memory.mem_insertCell {a : Nat} {v : Byte} {m : Memory} {c : Host.Cell} :
    c ∈ Memory.insertCell a v m ↔ c = (a, v) ∨ c ∈ m := by
  induction m with
  | nil => simp [Memory.insertCell]
  | cons d rest ih =>
    by_cases hlt : a < d.1
    · simp [Memory.insertCell, hlt]
    · simp [Memory.insertCell, hlt, ih, or_left_comm]

theorem Memory.rising_insertCell (a : Nat) (v : Byte) {m : Memory}
    (hm : m.Pairwise fun p q => p.1 < q.1) (h : ∀ c ∈ m, c.1 ≠ a) :
    (Memory.insertCell a v m).Pairwise fun p q => p.1 < q.1 := by
  induction m with
  | nil => simp [Memory.insertCell]
  | cons d rest ih =>
    have hd := List.pairwise_cons.1 hm
    by_cases hlt : a < d.1
    · simp only [Memory.insertCell, hlt, ↓reduceIte, List.pairwise_cons]
      refine ⟨fun c hc => ?_, hd⟩
      rcases List.mem_cons.1 hc with rfl | hc
      · exact hlt
      · exact lt_trans hlt (hd.1 c hc)
    · have hne : d.1 ≠ a := h d (by simp)
      simp only [Memory.insertCell, hlt, ↓reduceIte, List.pairwise_cons]
      refine ⟨fun c hc => ?_, ih hd.2 fun c hc => h c (by simp [hc])⟩
      rcases Memory.mem_insertCell.1 hc with rfl | hc
      · simp only; omega
      · exact hd.1 c hc

/-- Every cell of a written memory is the byte written or was there before. -/
theorem Memory.mem_writeByte {m : Memory} {a : Nat} {v : Byte} {c : Host.Cell}
    (h : c ∈ m.writeByte a v) : c = (a, v) ∧ v ≠ Memory.fill ∨ c ∈ m ∧ c.1 ≠ a := by
  unfold Memory.writeByte at h
  split at h
  · exact .inr (by simpa using h)
  · rcases Memory.mem_insertCell.1 h with h | h
    · exact .inl ⟨h, ‹_›⟩
    · exact .inr (by simpa using h)

/-- A byte write keeps the canonical form. -/
theorem Memory.wf_writeByte {m : Memory} (hm : m.wf) (a : Nat) (v : Byte) : (m.writeByte a v).wf := by
  refine ⟨?_, fun c hc => ?_⟩
  · have hf : (m.filter fun c => c.1 != a).Pairwise fun p q => p.1 < q.1 := hm.1.filter _
    unfold Memory.writeByte
    split
    · exact hf
    · exact Memory.rising_insertCell a v hf (by simp)
  · rcases Memory.mem_writeByte hc with ⟨rfl, hv⟩ | ⟨hc, -⟩
    · exact hv
    · exact hm.2 c hc

/-- A multi-byte write keeps the canonical form. -/
theorem Memory.wf_storeLE {m : Memory} (hm : m.wf) (a n v : Nat) : (m.storeLE a n v).wf := by
  induction n generalizing m a v with
  | zero => exact hm
  | succ n ih => exact ih (Memory.wf_writeByte hm _ _) _ _

/-- A multi-byte write leaves every byte outside its range alone. -/
theorem Memory.readByte_storeLE_outside (m : Memory) (a n v : Nat) {b : Nat}
    (h : b < a ∨ a + n ≤ b) : (m.storeLE a n v).readByte b = m.readByte b := by
  induction n generalizing m a v with
  | zero => rfl
  | succ n ih =>
    simp only [Memory.storeLE]
    rw [ih _ _ _ (by omega), Memory.readByte_writeByte_ne _ _ (by omega)]

/-- Byte `k` of a multi-byte write. -/
theorem Memory.readByte_storeLE_inside (m : Memory) (a n v : Nat) {k : Nat} (h : k < n) :
    (m.storeLE a n v).readByte (a + k) = BitVec.ofNat 8 (v / 256 ^ k) := by
  induction n generalizing m a v k with
  | zero => omega
  | succ n ih =>
    simp only [Memory.storeLE]
    cases k with
    | zero => rw [Memory.readByte_storeLE_outside _ _ _ _ (by omega)]; simp
    | succ k =>
      have := ih (m.writeByte a (BitVec.ofNat 8 v)) (a + 1) (v / 256) (k := k) (by omega)
      rw [show a + (k + 1) = a + 1 + k by omega, this, Nat.div_div_eq_div_mul, pow_succ']

/-- The cells of a multi-byte write lie in its range or were there before. -/
theorem Memory.mem_storeLE {m : Memory} {a n v : Nat} {c : Host.Cell} (h : c ∈ m.storeLE a n v) :
    c ∈ m ∨ a ≤ c.1 ∧ c.1 < a + n := by
  induction n generalizing m a v with
  | zero => exact .inl h
  | succ n ih =>
    rcases ih h with h | h
    · rcases Memory.mem_writeByte h with ⟨rfl, -⟩ | ⟨h, -⟩
      · right; simp only; omega
      · exact .inl h
    · right; omega

/-- A read of `n` bytes is below 2^(8n) (R53). -/
theorem Memory.loadLE_lt (m : Memory) (a n : Nat) : m.loadLE a n < 256 ^ n := by
  induction n generalizing a with
  | zero => simp [Memory.loadLE]
  | succ n ih =>
    have h := ih (a + 1)
    have hb := (m.readByte a).isLt
    simp only [Memory.loadLE, pow_succ]
    omega

/-- A 4-byte read fits a word, so it is its number. -/
@[simp] theorem Memory.toNat_word_loadLE (m : Memory) (a : Nat) :
    (BitVec.ofNat 32 (m.loadLE a 4)).toNat = m.loadLE a 4 := by
  rw [BitVec.toNat_ofNat]
  exact Nat.mod_eq_of_lt (Memory.loadLE_lt m a 4)

/-- A read depends on the bytes of its range only. -/
theorem Memory.loadLE_congr {m m' : Memory} {a n : Nat}
    (h : ∀ b, a ≤ b → b < a + n → m.readByte b = m'.readByte b) : m.loadLE a n = m'.loadLE a n := by
  induction n generalizing a with
  | zero => rfl
  | succ n ih =>
    simp only [Memory.loadLE]
    rw [h a (by omega) (by omega), ih fun b hb hb' => h b (by omega) (by omega)]

theorem Memory.wf_reset : State.reset.mem.wf := by decide

/-! The host's loads keep the canonical form too. -/

theorem State.wf_loadByte {s : State} (h : s.mem.wf) (a : Nat) (v : Byte) : (s.loadByte a v).mem.wf := by
  unfold State.loadByte
  split
  · exact Memory.wf_writeByte h a v
  · exact h

theorem State.wf_loadWords {s : State} (h : s.mem.wf) (a : Nat) (ws : List Word) :
    (s.loadWords a ws).mem.wf := by
  induction ws generalizing s a with
  | nil => exact h
  | cons w ws ih =>
    exact ih (State.wf_loadByte (State.wf_loadByte (State.wf_loadByte (State.wf_loadByte h _ _) _ _) _ _) _ _) _

end Sys2Proof.Machine
end

