-- ==== Sys2Proof/Laws/Ops.lean ====
section
/-! SUPPORT. One lemma for each shared operation that says everything it can do; later proofs cite
these and do not unfold the operations. -/

namespace Sys2Proof.Machine

/-! Register fields. -/

/-- A field names a cell exactly when it is below 20 (R20, R23). -/
theorem regOf_isSome_iff (f : RegField) : (regOf f).isSome = RegField.names f := by
  revert f; decide

/-- A checked field: the cell it names, or `InvalidRegister` with the field's value. -/
theorem checkReg_cases (f : RegField) :
    (∃ r, regOf f = some r ∧ checkReg f = .ok r) ∨
    (regOf f = none ∧ checkReg f = .error (.invalidRegister f)) := by
  cases h : regOf f <;> simp [checkReg, h]

theorem checkReg_of_some {f : RegField} {r : Reg} (h : regOf f = some r) : checkReg f = .ok r := by
  simp [checkReg, h]

theorem checkReg_of_none {f : RegField} (h : regOf f = none) :
    checkReg f = .error (.invalidRegister f) := by
  simp [checkReg, h]

/-! Guarded continuation. -/

@[simp] theorem State.guard_ok {α : Type} (s : State) (a : α) (k : α → Result) :
    s.guard (.ok a) k = k a := rfl

@[simp] theorem State.guard_error {α : Type} (s : State) (d : Diag) (k : α → Result) :
    s.guard (.error d) k = .next (s.raise d) := rfl

/-- A guarded continuation that answers a next state went on, or took the fault. -/
theorem State.guard_next {α : Type} {s t : State} {c : Except Diag α} {k : α → Result}
    (h : s.guard c k = .next t) :
    (∃ a, c = .ok a ∧ k a = .next t) ∨ (∃ d, c = .error d ∧ t = s.raise d) := by
  cases c with
  | ok a => exact .inl ⟨a, rfl, h⟩
  | error d => exact .inr ⟨d, rfl, (Host.Outcome.next.inj h).symm⟩

/-! Bounds-checked accesses. -/

theorem State.memRead_of_le {s : State} {addr n : Nat} (h : addr + n ≤ s.cfg.memSize) :
    s.memRead addr n = .ok (s.mem.loadLE addr n) := by
  simp [State.memRead, State.inBounds, h]

theorem State.memRead_of_gt {s : State} {addr n : Nat} (h : s.cfg.memSize < addr + n) :
    s.memRead addr n = .error (.outOfBounds addr) := by
  simp [State.memRead, State.inBounds, h]

theorem State.memWrite_of_le {s : State} {addr n : Nat} (v : Nat) (h : addr + n ≤ s.cfg.memSize) :
    s.memWrite addr n v = .ok { s with mem := s.mem.storeLE addr n v } := by
  simp [State.memWrite, State.inBounds, h]

theorem State.memWrite_of_gt {s : State} {addr n : Nat} (v : Nat) (h : s.cfg.memSize < addr + n) :
    s.memWrite addr n v = .error (.outOfBounds addr) := by
  simp [State.memWrite, State.inBounds, h]

/-- Everything a 4-byte read can do. -/
theorem State.loadWord_eq (s : State) (addr : Nat) :
    s.loadWord addr = if addr + 4 ≤ s.cfg.memSize then .ok (BitVec.ofNat 32 (s.mem.loadLE addr 4))
      else .error (.outOfBounds addr) := by
  by_cases h : addr + 4 ≤ s.cfg.memSize
  · simp [State.loadWord, accessBytes, State.memRead_of_le, h]
  · simp [State.loadWord, accessBytes, State.memRead_of_gt (Nat.lt_of_not_le h), h]

/-- Everything a 4-byte write can do. -/
theorem State.storeWord_eq (s : State) (addr : Nat) (v : Word) :
    s.storeWord addr v = if addr + 4 ≤ s.cfg.memSize then .ok { s with mem := s.mem.storeLE addr 4 v.toNat }
      else .error (.outOfBounds addr) := by
  by_cases h : addr + 4 ≤ s.cfg.memSize
  · simp [State.storeWord, accessBytes, State.memWrite_of_le, h]
  · simp [State.storeWord, accessBytes, State.memWrite_of_gt _ (Nat.lt_of_not_le h), h]

/-- The fetch's two tests are one condition (R90, conflict C4). -/
theorem State.fetch_eq (s : State) :
    s.fetch = if s.pc.toNat + 4 ≤ s.cfg.memSize then .ok (BitVec.ofNat 32 (s.mem.loadLE s.pc.toNat 4))
      else .error (.outOfBounds s.pc.toNat) := by
  unfold State.fetch
  rw [State.loadWord_eq]
  split <;> split <;> first | rfl | omega

/-! Dispatch. -/

/-- Everything dispatch can do. -/
theorem State.dispatch_cases (s : State) (iw : Word) :
    (∃ i, decode s.cfg.opc iw = .ok i ∧ s.dispatch iw = .ok i) ∨
    (s.cfg.opc.lookup (fieldsOf iw).opc = none ∧
      s.dispatch iw = .error (.unknownOpcode (fieldsOf iw).opc)) := by
  unfold State.dispatch decode
  cases s.cfg.opc.lookup (fieldsOf iw).opc <;> simp

/-! Instruction templates. -/

/-- Everything R91's two-register prologue can do. -/
theorem withTwoRegs_next {r1 r2 : RegField} {s t : State} {k : Reg → Reg → Result}
    (h : withTwoRegs r1 r2 s k = .next t) :
    (∃ a b, regOf r1 = some a ∧ regOf r2 = some b ∧ k a b = .next t) ∨
    (∃ f, (f = r1 ∨ f = r2) ∧ regOf f = none ∧ t = s.raise (.invalidRegister f)) := by
  unfold withTwoRegs at h
  rcases checkReg_cases r1 with ⟨a, ha, e1⟩ | ⟨h1, e1⟩ <;> rw [e1] at h
  · rcases checkReg_cases r2 with ⟨b, hb, e2⟩ | ⟨h2, e2⟩ <;>
      simp only [State.guard_ok, State.guard_error, e2] at h
    · exact .inl ⟨a, b, ha, hb, h⟩
    · exact .inr ⟨r2, .inr rfl, h2, (Host.Outcome.next.inj h).symm⟩
  · exact .inr ⟨r1, .inl rfl, h1, (Host.Outcome.next.inj h).symm⟩

theorem withTwoRegs_of_some {r1 r2 : RegField} {a b : Reg} (s : State) (k : Reg → Reg → Result)
    (h1 : regOf r1 = some a) (h2 : regOf r2 = some b) : withTwoRegs r1 r2 s k = k a b := by
  simp [withTwoRegs, checkReg_of_some h1, checkReg_of_some h2]

/-- The register-and-immediate template on fields that name cells. -/
theorem writeFromSrc_of_some {r1 r2 : RegField} {d a : Reg} (f : Word → Word) (s : State)
    (h1 : regOf r1 = some d) (h2 : regOf r2 = some a) :
    writeFromSrc f r1 r2 s = .next (s.writeDest d (f (s.reg a))) :=
  withTwoRegs_of_some s _ h1 h2

/-- The compare template on fields that name cells. -/
theorem compareRegs_of_some {r1 r2 : RegField} {a b : Reg} (rel : Word → Word → Bool) (s : State)
    (h1 : regOf r1 = some a) (h2 : regOf r2 = some b) :
    compareRegs rel r1 r2 s = .next (s.setComp (rel (s.reg a) (s.reg b))) :=
  withTwoRegs_of_some s _ h1 h2

/-! The step. -/

/-- Everything a step can do: stop because the run has ended, take the fetch fault, take the unknown
opcode's fault, or run the decoded instruction. -/
theorem step_cases (s : State) :
    (s.running = false ∧ step s = .fault .halted) ∨
    (s.running = true ∧ s.cfg.memSize < s.pc.toNat + 4 ∧
      step s = .next (s.raise (.outOfBounds s.pc.toNat))) ∨
    (s.running = true ∧ s.pc.toNat + 4 ≤ s.cfg.memSize ∧ ∃ iw, s.fetch = .ok iw ∧
      ((s.cfg.opc.lookup (fieldsOf iw).opc = none ∧
          step s = .next (s.advancePc.raise (.unknownOpcode (fieldsOf iw).opc))) ∨
        ∃ i, decode s.cfg.opc iw = .ok i ∧ step s = exec i s.advancePc)) := by
  cases hr : s.running with
  | false => exact .inl ⟨rfl, by simp [step, hr]⟩
  | true =>
    right
    have hf := s.fetch_eq
    by_cases hb : s.pc.toNat + 4 ≤ s.cfg.memSize
    · right
      simp only [hb, if_true] at hf
      refine ⟨rfl, hb, _, hf, ?_⟩
      rcases s.dispatch_cases (BitVec.ofNat 32 (s.mem.loadLE s.pc.toNat 4)) with ⟨i, hi, hd⟩ | ⟨hn, hd⟩
      · exact .inr ⟨i, hi, by simp [step, hr, hf, hd]⟩
      · exact .inl ⟨hn, by simp [step, hr, hf, hd]⟩
    · left
      simp only [hb, if_false] at hf
      exact ⟨rfl, by omega, by simp [step, hr, hf]⟩

end Sys2Proof.Machine
end

