-- ==== Sys2Proof/Laws/Exec.lean ====
section
/-! SUPPORT. Everything an instruction can do, said once: later proofs over all instructions go by the
cases of `Effect` and never unfold a meaning. -/

namespace Sys2Proof.Machine

/-- What running `i` in `s` can come to: one case for each shape of effect the spec gives. -/
inductive Effect (i : Instr) (s : State) : State → Prop where
  /-- A fatal fault, met before anything was done (R91, R171). -/
  | raised (d : Diag) (hd : d.fatal = true) : Effect i s (s.raise d)
  /-- A malformed answer (R151). -/
  | malformed (f : RegField) (rest : List IntAnswer) (hi : i = .input f)
      (h : s.intIn = .malformed :: rest) :
      Effect i s (({ s with intIn := rest } : State).raise .malformedInput)
  /-- An unknown trap vector (R158). -/
  | reported (vec : TrapVec) (hi : i = .trap vec) (hg : vec ≠ 0x20) :
      Effect i s (s.raise (.unknownTrapVector vec))
  /-- A destination written, with its flag, by an instruction that reads no port (R30). -/
  | dest (f : RegField) (d : Reg) (v : Word) (hf : destField i = some f) (hd : regOf f = some d)
      (hn : ∀ g, i ≠ .input g) :
      Effect i s (s.writeDest d v)
  /-- A quotient and a remainder written, with the destination's flag (R103). -/
  | divided (r1 r2 : RegField) (imm : Imm) (d : Reg) (q m : Word) (hi : i = .div r1 r2 imm)
      (hd : regOf r1 = some d) : Effect i s (((s.setReg d q).setReg .rem m).setFlags d)
  /-- A compare (R32). -/
  | compared (b : Bool) (r1 r2 : RegField)
      (hi : i = .cmpEq r1 r2 ∨ i = .cmpNeq r1 r2 ∨ i = .cmpGt r1 r2 ∨ i = .cmpLt r1 r2) :
      Effect i s (s.setComp b)
  /-- Four bytes stored, in bounds (R131, R133). -/
  | stored (r1 : RegField) (imm : Imm) (r : Reg) (e : Nat) (hi : i = .store r1 imm ∨ i = .sti r1 imm)
      (hr : regOf r1 = some r) (he : storeAddr i s = some e) (hb : e + 4 ≤ s.cfg.memSize) :
      Effect i s { s with mem := s.mem.storeLE e 4 (s.reg r).toNat }
  /-- A jump (R140, R141). -/
  | jumped (imm : Imm) (v : Word) (hi : i = .jmpAbs imm ∨ i = .jmpRel imm) :
      Effect i s (s.setReg .pc v)
  /-- The run's ordinary end (R142, R157). -/
  | stopped (hi : i = .halt ∨ i = .trap s.cfg.trapHaltVec)
      (hg : i ≠ .trap 0x20) : Effect i s s.stop
  /-- An integer read (R150). -/
  | answered (f : RegField) (d : Reg) (v : Word) (rest : List IntAnswer) (hi : i = .input f)
      (hd : regOf f = some d) (h : s.intIn = .value v :: rest) :
      Effect i s (({ s with intIn := rest } : State).writeDest d v)
  /-- A character read (R154). -/
  | gotChar (c : Word) (rest : List Word) (hi : i = .trap 0x20) (h : s.charIn = c :: rest) :
      Effect i s (({ s with charIn := rest } : State).setReg (.gpr 0) (charOf s.cfg c))
  /-- A register printed (R156). -/
  | printed (f : RegField) (v : Word) (hi : i = .output f) : Effect i s (s.emit (.outInt f v))
  /-- A character printed (R155). -/
  | putChar (b : Byte) (hi : i = .trap 0x21) : Effect i s (s.emit (.outChar b))

/-- The register-and-immediate template's effect. -/
theorem writeFromSrc_effect {i : Instr} {f : Word → Word} {r1 r2 : RegField} {s t : State}
    (hf : destField i = some r1) (hn : ∀ g, i ≠ .input g)
    (h : writeFromSrc f r1 r2 s = .next t) : Effect i s t := by
  rcases withTwoRegs_next h with ⟨d, a, hd, -, h⟩ | ⟨g, -, -, rfl⟩
  · cases h; exact .dest r1 d _ hf hd hn
  · exact .raised _ rfl

/-- The compare template's effect. -/
theorem compareRegs_effect {i : Instr} {rel : Word → Word → Bool} {r1 r2 : RegField} {s t : State}
    (hi : i = .cmpEq r1 r2 ∨ i = .cmpNeq r1 r2 ∨ i = .cmpGt r1 r2 ∨ i = .cmpLt r1 r2)
    (h : compareRegs rel r1 r2 s = .next t) : Effect i s t := by
  rcases withTwoRegs_next h with ⟨d, a, -, -, h⟩ | ⟨g, -, -, rfl⟩
  · cases h; exact .compared _ r1 r2 hi
  · exact .raised _ rfl

/-- A checked register field goes on with its cell or is a fatal fault. -/
theorem guard_checkReg_next {f : RegField} {s t : State} {k : Reg → Result}
    (h : s.guard (checkReg f) k = .next t) :
    (∃ r, regOf f = some r ∧ k r = .next t) ∨ ∃ d, d.fatal = true ∧ t = s.raise d := by
  rcases checkReg_cases f with ⟨r, hr, e⟩ | ⟨-, e⟩ <;> rw [e] at h
  · exact .inl ⟨r, hr, h⟩
  · exact .inr ⟨_, rfl, (Host.Outcome.next.inj h).symm⟩

/-- A checked 4-byte read goes on with the word or is a fatal fault. -/
theorem guard_loadWord_next {a : Nat} {s t : State} {k : Word → Result}
    (h : s.guard (s.loadWord a) k = .next t) :
    k (BitVec.ofNat 32 (s.mem.loadLE a 4)) = .next t ∨ ∃ d, d.fatal = true ∧ t = s.raise d := by
  rw [State.loadWord_eq] at h
  split at h
  · exact .inl h
  · exact .inr ⟨_, rfl, (Host.Outcome.next.inj h).symm⟩

/-- A checked 4-byte write is the stored state, in bounds, or a fatal fault. -/
theorem guard_storeWord_next {a : Nat} {v : Word} {s t : State}
    (h : s.guard (s.storeWord a v) .next = .next t) :
    (a + 4 ≤ s.cfg.memSize ∧ t = { s with mem := s.mem.storeLE a 4 v.toNat }) ∨
    ∃ d, d.fatal = true ∧ t = s.raise d := by
  rw [State.storeWord_eq] at h
  split at h
  · exact .inl ⟨‹_›, (Host.Outcome.next.inj h).symm⟩
  · exact .inr ⟨_, rfl, (Host.Outcome.next.inj h).symm⟩

theorem execDiv_effect {r1 r2 : RegField} {imm : Imm} {s t : State}
    (h : execDiv r1 r2 imm s = .next t) : Effect (.div r1 r2 imm) s t := by
  rcases withTwoRegs_next h with ⟨d, a, hd, -, h⟩ | ⟨g, -, -, rfl⟩
  · split at h
    · cases h; exact .raised _ rfl
    · cases h; exact .divided r1 r2 imm d _ _ rfl hd
  · exact .raised _ rfl

theorem execStore_effect {r1 : RegField} {imm : Imm} {s t : State}
    (h : execStore r1 imm s = .next t) : Effect (.store r1 imm) s t := by
  rcases guard_checkReg_next h with ⟨r, hr, h⟩ | ⟨d, hd, rfl⟩
  · rcases guard_storeWord_next h with ⟨hb, rfl⟩ | ⟨d, hd, rfl⟩
    · exact .stored r1 imm r _ (.inl rfl) hr rfl hb
    · exact .raised d hd
  · exact .raised d hd

theorem execLdi_effect {r1 : RegField} {imm : Imm} {s t : State}
    (h : execLdi r1 imm s = .next t) : Effect (.ldi r1 imm) s t := by
  rcases guard_checkReg_next h with ⟨r, hr, h⟩ | ⟨d, hd, rfl⟩
  · rcases guard_loadWord_next h with h | ⟨d, hd, rfl⟩
    · rcases guard_loadWord_next h with h | ⟨d, hd, rfl⟩
      · cases h; exact .dest r1 r _ rfl hr (by simp)
      · exact .raised d hd
    · exact .raised d hd
  · exact .raised d hd

theorem execSti_effect {r1 : RegField} {imm : Imm} {s t : State}
    (h : execSti r1 imm s = .next t) : Effect (.sti r1 imm) s t := by
  rcases guard_checkReg_next h with ⟨r, hr, h⟩ | ⟨d, hd, rfl⟩
  · rcases guard_loadWord_next h with h | ⟨d, hd, rfl⟩
    · rw [Memory.toNat_word_loadLE] at h
      rcases guard_storeWord_next h with ⟨hb, rfl⟩ | ⟨d, hd, rfl⟩
      · exact .stored r1 imm r _ (.inr rfl) hr rfl hb
      · exact .raised d hd
    · exact .raised d hd
  · exact .raised d hd

theorem execInput_effect {r1 : RegField} {s t : State}
    (h : execInput r1 s = .next t) : Effect (.input r1) s t := by
  rcases guard_checkReg_next h with ⟨r, hr, h⟩ | ⟨d, hd, rfl⟩
  · rcases hi : s.intIn with _ | ⟨_ | _, rest⟩ <;> simp only [State.inInt, hi] at h <;> cases h
    · exact .answered r1 r _ rest rfl hr hi
    · exact .malformed r1 rest rfl hi
  · exact .raised d hd

theorem execTrap_effect {vec : TrapVec} {s t : State}
    (h : execTrap vec s = .next t) : Effect (.trap vec) s t := by
  unfold execTrap at h
  split at h
  · rename_i hv
    unfold trapGetc at h
    rcases hc : s.charIn with _ | ⟨c, rest⟩ <;> simp only [State.inChar, hc] at h <;> cases h
    · exact .gotChar c rest (by rw [hv, trapGetcVec]) hc
  · rename_i hg
    split at h
    · cases h; exact .putChar _ (by rw [‹vec = _›, trapOutVec])
    · split at h <;> cases h
      · exact .stopped (.inr (by rw [‹vec = _›])) (by simpa [trapGetcVec] using hg)
      · exact .reported vec rfl hg

/-- Everything an instruction can do. -/
theorem exec_effect {i : Instr} {s t : State} (h : exec i s = .next t) : Effect i s t := by
  cases i with
  | add r1 r2 imm => simp only [exec, execAdd] at h; exact writeFromSrc_effect rfl (by simp) h
  | sub r1 r2 imm => simp only [exec, execSub] at h; exact writeFromSrc_effect rfl (by simp) h
  | mul r1 r2 imm => simp only [exec, execMul] at h; exact writeFromSrc_effect rfl (by simp) h
  | div r1 r2 imm => exact execDiv_effect h
  | and r1 r2 imm => simp only [exec, execAnd] at h; exact writeFromSrc_effect rfl (by simp) h
  | or r1 r2 imm => simp only [exec, execOr] at h; exact writeFromSrc_effect rfl (by simp) h
  | xor r1 r2 imm => simp only [exec, execXor] at h; exact writeFromSrc_effect rfl (by simp) h
  | not r1 r2 => simp only [exec, execNot] at h; exact writeFromSrc_effect rfl (by simp) h
  | shl r1 r2 imm => simp only [exec, execShl] at h; exact writeFromSrc_effect rfl (by simp) h
  | shr r1 r2 imm => simp only [exec, execShr] at h; exact writeFromSrc_effect rfl (by simp) h
  | cmpEq r1 r2 => simp only [exec, execCmpEq] at h; exact compareRegs_effect (.inl rfl) h
  | cmpNeq r1 r2 => simp only [exec, execCmpNeq] at h; exact compareRegs_effect (.inr (.inl rfl)) h
  | cmpGt r1 r2 => simp only [exec, execCmpGt] at h; exact compareRegs_effect (.inr (.inr (.inl rfl))) h
  | cmpLt r1 r2 => simp only [exec, execCmpLt] at h; exact compareRegs_effect (.inr (.inr (.inr rfl))) h
  | load r1 imm =>
    rcases guard_checkReg_next h with ⟨r, hr, h⟩ | ⟨d, hd, rfl⟩
    · cases h; exact .dest r1 r _ rfl hr (by simp)
    · exact .raised d hd
  | store r1 imm => exact execStore_effect h
  | ldi r1 imm => exact execLdi_effect h
  | sti r1 imm => exact execSti_effect h
  | lea r1 imm =>
    rcases guard_checkReg_next h with ⟨r, hr, h⟩ | ⟨d, hd, rfl⟩
    · cases h; exact .dest r1 r _ rfl hr (by simp)
    · exact .raised d hd
  | jmpAbs imm => cases h; exact .jumped imm _ (.inl rfl)
  | jmpRel imm => cases h; exact .jumped imm _ (.inr rfl)
  | input r1 => exact execInput_effect h
  | output r1 =>
    rcases guard_checkReg_next h with ⟨r, hr, h⟩ | ⟨d, hd, rfl⟩
    · cases h; exact .printed r1 _ rfl
    · exact .raised d hd
  | trap vec => exact execTrap_effect h
  | halt => cases h; exact .stopped (.inl rfl) (by simp)

end Sys2Proof.Machine
end

