-- ==== Sys2Proof/Laws/PerInstr.lean ====
section
/-! SUPPORT. The family CanonicalWord: an instruction's canonical word carries its opcode and its
operands in the fields of R78, and those fields assemble to it again. -/

namespace Sys2Proof.Laws.CanonicalWord

/-- What holds of one instruction's canonical word. -/
def Statement (i : Instr) : Prop :=
  ∀ m : OpcodeMap, fieldsOf (encode m i) = i.fields m ∧
    (i.fields m).opc = m.opcodeOf i.mnemonic ∧ assemble i.mnemonic (i.fields m) = i

theorem add (r1 r2 : RegField) (imm : Imm) : Statement (.add r1 r2 imm) :=
  fun _ => ⟨fieldsOf_packFields _, rfl, rfl⟩

theorem sub (r1 r2 : RegField) (imm : Imm) : Statement (.sub r1 r2 imm) :=
  fun _ => ⟨fieldsOf_packFields _, rfl, rfl⟩

theorem mul (r1 r2 : RegField) (imm : Imm) : Statement (.mul r1 r2 imm) :=
  fun _ => ⟨fieldsOf_packFields _, rfl, rfl⟩

theorem div (r1 r2 : RegField) (imm : Imm) : Statement (.div r1 r2 imm) :=
  fun _ => ⟨fieldsOf_packFields _, rfl, rfl⟩

theorem and (r1 r2 : RegField) (imm : Imm) : Statement (.and r1 r2 imm) :=
  fun _ => ⟨fieldsOf_packFields _, rfl, rfl⟩

theorem or (r1 r2 : RegField) (imm : Imm) : Statement (.or r1 r2 imm) :=
  fun _ => ⟨fieldsOf_packFields _, rfl, rfl⟩

theorem xor (r1 r2 : RegField) (imm : Imm) : Statement (.xor r1 r2 imm) :=
  fun _ => ⟨fieldsOf_packFields _, rfl, rfl⟩

theorem not (r1 r2 : RegField) : Statement (.not r1 r2) :=
  fun _ => ⟨fieldsOf_packFields _, rfl, rfl⟩

theorem shl (r1 r2 : RegField) (imm : Imm) : Statement (.shl r1 r2 imm) :=
  fun _ => ⟨fieldsOf_packFields _, rfl, rfl⟩

theorem shr (r1 r2 : RegField) (imm : Imm) : Statement (.shr r1 r2 imm) :=
  fun _ => ⟨fieldsOf_packFields _, rfl, rfl⟩

theorem cmpEq (r1 r2 : RegField) : Statement (.cmpEq r1 r2) :=
  fun _ => ⟨fieldsOf_packFields _, rfl, rfl⟩

theorem cmpNeq (r1 r2 : RegField) : Statement (.cmpNeq r1 r2) :=
  fun _ => ⟨fieldsOf_packFields _, rfl, rfl⟩

theorem cmpGt (r1 r2 : RegField) : Statement (.cmpGt r1 r2) :=
  fun _ => ⟨fieldsOf_packFields _, rfl, rfl⟩

theorem cmpLt (r1 r2 : RegField) : Statement (.cmpLt r1 r2) :=
  fun _ => ⟨fieldsOf_packFields _, rfl, rfl⟩

theorem load (r1 : RegField) (imm : Imm) : Statement (.load r1 imm) :=
  fun _ => ⟨fieldsOf_packFields _, rfl, rfl⟩

theorem store (r1 : RegField) (imm : Imm) : Statement (.store r1 imm) :=
  fun _ => ⟨fieldsOf_packFields _, rfl, rfl⟩

theorem ldi (r1 : RegField) (imm : Imm) : Statement (.ldi r1 imm) :=
  fun _ => ⟨fieldsOf_packFields _, rfl, rfl⟩

theorem sti (r1 : RegField) (imm : Imm) : Statement (.sti r1 imm) :=
  fun _ => ⟨fieldsOf_packFields _, rfl, rfl⟩

theorem lea (r1 : RegField) (imm : Imm) : Statement (.lea r1 imm) :=
  fun _ => ⟨fieldsOf_packFields _, rfl, rfl⟩

theorem jmpAbs (imm : Imm) : Statement (.jmpAbs imm) :=
  fun _ => ⟨fieldsOf_packFields _, rfl, rfl⟩

theorem jmpRel (imm : Imm) : Statement (.jmpRel imm) :=
  fun _ => ⟨fieldsOf_packFields _, rfl, rfl⟩

theorem input (r1 : RegField) : Statement (.input r1) :=
  fun _ => ⟨fieldsOf_packFields _, rfl, rfl⟩

theorem output (r1 : RegField) : Statement (.output r1) :=
  fun _ => ⟨fieldsOf_packFields _, rfl, rfl⟩

theorem trap (vec : TrapVec) : Statement (.trap vec) :=
  fun m => ⟨fieldsOf_packFields _, rfl, by simp [Instr.mnemonic, Instr.fields, assemble, trapVecOf, BitVec.extractLsb'_setWidth_of_le]⟩

theorem halt : Statement .halt :=
  fun _ => ⟨fieldsOf_packFields _, rfl, rfl⟩

end Sys2Proof.Laws.CanonicalWord
end

