-- ==== Sys2Proof/Tests/Slice0.lean ====
section
/-! SUPPORT. The model's own tests: the smoke test of well-formedness, the decoding of every
constructor, and single steps. Every expected value is from spec/95_test_vectors.md or an example of a
rule, or computed by hand from the rule named; none is the model's own answer. -/

namespace Sys2Proof.Machine

/-! Well-formedness: each check refuses an ill-formed term (R20, R23, R85; R7 for the parameters). -/

theorem test_wf_refuses_r1 :
    Instr.wf (.add 20 1 0) = false ∧
    Instr.wf (.sub 20 1 0) = false ∧
    Instr.wf (.mul 20 1 0) = false ∧
    Instr.wf (.div 20 1 0) = false ∧
    Instr.wf (.and 20 1 0) = false ∧
    Instr.wf (.or 20 1 0) = false ∧
    Instr.wf (.xor 20 1 0) = false ∧
    Instr.wf (.shl 20 1 0) = false ∧
    Instr.wf (.shr 20 1 0) = false ∧
    Instr.wf (.not 20 1) = false ∧
    Instr.wf (.cmpEq 20 1) = false ∧
    Instr.wf (.cmpNeq 20 1) = false ∧
    Instr.wf (.cmpGt 20 1) = false ∧
    Instr.wf (.cmpLt 20 1) = false ∧
    Instr.wf (.load 20 0) = false ∧
    Instr.wf (.store 20 0) = false ∧
    Instr.wf (.ldi 20 0) = false ∧
    Instr.wf (.sti 20 0) = false ∧
    Instr.wf (.lea 20 0) = false ∧
    Instr.wf (.input 20) = false ∧
    Instr.wf (.output 20) = false := by
  decide

theorem test_wf_refuses_r2 :
    Instr.wf (.add 1 31 0) = false ∧
    Instr.wf (.sub 1 31 0) = false ∧
    Instr.wf (.mul 1 31 0) = false ∧
    Instr.wf (.div 1 31 0) = false ∧
    Instr.wf (.and 1 31 0) = false ∧
    Instr.wf (.or 1 31 0) = false ∧
    Instr.wf (.xor 1 31 0) = false ∧
    Instr.wf (.shl 1 31 0) = false ∧
    Instr.wf (.shr 1 31 0) = false ∧
    Instr.wf (.not 1 31) = false ∧
    Instr.wf (.cmpEq 1 31) = false ∧
    Instr.wf (.cmpNeq 1 31) = false ∧
    Instr.wf (.cmpGt 1 31) = false ∧
    Instr.wf (.cmpLt 1 31) = false := by
  decide

theorem test_wf_accepts : Instr.wf (.add 0 19 5) = true ∧ Instr.wf (.trap 0xFF) = true := by decide

theorem test_config_wf_default : Config.specDefault.wf := by decide

/-- R7's constraints, as a test. -/
def refusesConfig (c : Config) : Bool := !decide c.wf

theorem test_config_wf_refuses :
    refusesConfig { Config.specDefault with memSize := 3 } = true ∧
    refusesConfig { Config.specDefault with memSize := 2 ^ 32 + 1 } = true ∧
    refusesConfig { Config.specDefault with opc := { OpcodeMap.specDefault with halt := 0 } } = true ∧
    refusesConfig { Config.specDefault with opc := { OpcodeMap.specDefault with halt := 1 } } = true ∧
    refusesConfig { Config.specDefault with condZ := 0 } = true ∧
    refusesConfig { Config.specDefault with condZ := 1 } = true ∧
    refusesConfig { Config.specDefault with trapHaltVec := 0x21 } = true ∧
    refusesConfig { Config.specDefault with charInBits := 0 } = true ∧
    refusesConfig { Config.specDefault with charInBits := 33 } = true := by
  decide

/-! Decoding: words written out from R76 and R82 (opc 31:27, r1 26:22, r2 21:17, rsv 16, imm 15:0). -/

theorem test_decode_arith :
    decodeTableWord 32 0x08020005 = some (.add 0 1 5) ∧
    decodeTableWord 32 0x08030005 = some (.add 0 1 5) ∧
    decodeTableWord 32 0x10440005 = some (.sub 1 2 5) ∧
    decodeTableWord 32 0x18E60014 = some (.mul 3 19 0x14) ∧
    decodeTableWord 32 0x20C40000 = some (.div 3 2 0) := by
  decide

theorem test_decode_logic :
    decodeTableWord 32 0x2844FF00 = some (.and 1 2 0xFF00) ∧
    decodeTableWord 32 0x30448001 = some (.or 1 2 0x8001) ∧
    decodeTableWord 32 0x3844FFFF = some (.xor 1 2 0xFFFF) ∧
    decodeTableWord 32 0x40441234 = some (.not 1 2) ∧
    decodeTableWord 32 0x48440004 = some (.shl 1 2 4) ∧
    decodeTableWord 32 0x50440004 = some (.shr 1 2 4) := by
  decide

theorem test_decode_compare :
    decodeTableWord 32 0x58440000 = some (.cmpEq 1 2) ∧
    decodeTableWord 32 0x60440000 = some (.cmpNeq 1 2) ∧
    decodeTableWord 32 0x68440000 = some (.cmpGt 1 2) ∧
    decodeTableWord 32 0x70440000 = some (.cmpLt 1 2) := by
  decide

theorem test_decode_data_move :
    decodeTableWord 32 0x78720005 = some (.load 1 5) ∧
    decodeTableWord 32 0x80400100 = some (.store 1 0x100) ∧
    decodeTableWord 32 0x8840000C = some (.ldi 1 0xC) ∧
    decodeTableWord 32 0x9040000C = some (.sti 1 0xC) ∧
    decodeTableWord 32 0x98400010 = some (.lea 1 0x10) := by
  decide

theorem test_decode_control :
    decodeTableWord 32 0xA7FE0040 = some (.jmpAbs 0x40) ∧
    decodeTableWord 32 0xA8000008 = some (.jmpRel 8) ∧
    decodeTableWord 32 0xCFFEFFFF = some (.halt) := by
  decide

theorem test_decode_io_trap :
    decodeTableWord 32 0xB0400000 = some (.input 1) ∧
    decodeTableWord 32 0xBC800000 = some (.output 18) ∧
    decodeTableWord 32 0xC7FE0125 = some (.trap 0x25) := by
  decide

theorem test_decode_refuses_unassigned :
    decodeTableWord 32 0x07FFFFFF = none ∧ decodeTableWord 32 0xD0000000 = none ∧
    decodeTableWord 32 0xFFFFFFFF = none := by
  decide

/-- R88's worked encodings. -/
theorem test_encode_worked :
    encode OpcodeMap.specDefault (.load 1 2) = 0x78400002 ∧
    encode OpcodeMap.specDefault (.add 0 1 5) = 0x08020005 ∧
    encode OpcodeMap.specDefault .halt = 0xC8000000 ∧
    encode OpcodeMap.specDefault (.div 3 2 0) = 0x20C40000 := by
  decide

/-! Single steps. -/

/-- The reset state with registers preset. -/
def withRegs (rs : List (Reg × Word)) : State := rs.foldl (fun s r => s.preset r.1 r.2) State.reset

/-- The reset state with words loaded and registers preset. -/
def withWords (ws : List (Nat × Word)) (rs : List (Reg × Word)) : State :=
  ws.foldl (fun s w => s.loadWords w.1 [w.2]) (withRegs rs)

/-- The reset state with another memory size. -/
def withMemSize (n : Nat) (rs : List (Reg × Word)) : State :=
  (withRegs rs).configure { Config.specDefault with memSize := n }

/-- One step of the word at PC: what `view` shows of the next state. -/
def after {α : Type} (w : Nat) (s : State) (view : State → α) : Option α :=
  match step (s.withFetchWord 32 w) with
  | .next t => some (view t)
  | _ => none

/-- A register, PC and COND. -/
def rpc (r : Reg) (t : State) : Word × Word × Word := (t.reg r, t.pc, t.cond)

/-- PC, the running flag and the output. -/
def pro (t : State) : Word × Bool × List Event := (t.pc, t.running, t.trace)

theorem test_add_wraps : after 0x08420001 (withRegs [(.gpr 1, 0xFFFFFFFF)]) (rpc (.gpr 1)) = some (0, 4, 2) := by decide

theorem test_add_to_pc_jumps : after 0x0C060000 (withRegs [(.gpr 3, 0x40)]) (rpc .pc) = some (0x40, 0x40, 1) := by decide

theorem test_sub_borrows : after 0x10420001 State.reset (rpc (.gpr 1)) = some (0xFFFFFFFF, 4, 4) := by decide

theorem test_sub_pc_backward : after 0x14200014 (withRegs [(.pc, 0x14)]) (rpc .pc) = some (4, 4, 1) := by decide

theorem test_mul_negative : after 0x18440002 (withRegs [(.gpr 2, 0xFFFFFFFF)]) (rpc (.gpr 1)) = some (0xFFFFFFFE, 4, 4) := by decide

theorem test_mul_wraps : after 0x18440002 (withRegs [(.gpr 2, 0x80000000)]) (rpc (.gpr 1)) = some (0, 4, 2) := by decide

theorem test_div_floors : after 0x20C40003 (withRegs [(.gpr 2, 0xFFFFFFF9)]) (fun t => (rpc (.gpr 3) t, t.rem)) = some ((0xFFFFFFFD, 4, 4), 2) := by decide

theorem test_div_to_rem : after 0x24440003 (withRegs [(.gpr 2, 7)]) (rpc .rem) = some (1, 4, 1) := by decide

theorem test_and_clears_upper : after 0x2844FF00 (withRegs [(.gpr 2, 0x12345678)]) (rpc (.gpr 1)) = some (0x5600, 4, 1) := by decide

theorem test_or_keeps_sign : after 0x30448001 (withRegs [(.gpr 2, 0x80000000)]) (rpc (.gpr 1)) = some (0x80008001, 4, 4) := by decide

theorem test_xor_low_half : after 0x3844FFFF (withRegs [(.gpr 2, 0xFFFFFFFF)]) (rpc (.gpr 1)) = some (0xFFFF0000, 4, 4) := by decide

theorem test_not_ignores_imm : after 0x40441234 (withRegs [(.gpr 1, 7), (.gpr 2, 0xFFFFFFFF)]) (rpc (.gpr 1)) = some (0, 4, 2) := by decide

theorem test_shl_sign : after 0x4844001F (withRegs [(.gpr 2, 1)]) (rpc (.gpr 1)) = some (0x80000000, 4, 4) := by decide

theorem test_shl_not_masked : after 0x48440020 (withRegs [(.gpr 1, 7), (.gpr 2, 1)]) (rpc (.gpr 1)) = some (0, 4, 2) := by decide

theorem test_shr_logical : after 0x50440001 (withRegs [(.gpr 2, 0xFFFFFFFF)]) (rpc (.gpr 1)) = some (0x7FFFFFFF, 4, 1) := by decide

theorem test_shr_not_masked : after 0x50440020 (withRegs [(.gpr 1, 7), (.gpr 2, 0x80000000)]) (rpc (.gpr 1)) = some (0, 4, 2) := by decide

theorem test_cmp_eq_clears : after 0x58440000 (withRegs [(.gpr 1, 1), (.gpr 2, 2), (.comp, 1), (.cond, 4)]) (rpc .comp) = some (0, 4, 4) := by decide

theorem test_cmp_neq : after 0x60440000 (withRegs [(.gpr 1, 1), (.gpr 2, 0xFFFFFFFF), (.cond, 4)]) (rpc .comp) = some (1, 4, 4) := by decide

theorem test_cmp_gt_signed : after 0x68440000 (withRegs [(.gpr 1, 1), (.gpr 2, 0xFFFFFFFF)]) (rpc .comp) = some (1, 4, 0) := by decide

theorem test_cmp_lt_reads_pcn : after 0x74020000 (withRegs [(.gpr 1, 4)]) (rpc .comp) = some (0, 4, 0) := by decide

theorem test_cmp_lt_signed : after 0x70440000 (withRegs [(.gpr 1, 0x80000000), (.gpr 2, 0x7FFFFFFF)]) (rpc .comp) = some (1, 4, 0) := by decide

theorem test_load_ignores_r2 : after 0x78720005 State.reset (rpc (.gpr 1)) = some (5, 4, 1) := by decide

theorem test_load_zero : after 0x78400000 (withRegs [(.gpr 1, 7), (.cond, 1)]) (rpc (.gpr 1)) = some (0, 4, 2) := by decide

theorem test_store_unaligned : after 0x80400101 (withWords [(0x100, 0xAAAAAAAA), (0x104, 0xBBBBBBBB)] [(.gpr 1, 0x11223344)]) (fun t => (t.mem.loadLE 0x100 4, t.mem.loadLE 0x104 4)) = some (0x223344AA, 0xBBBBBB11) := by decide

theorem test_store_bounds_edge : after 0x8040FFFD (withMemSize 65536 [(.gpr 1, 1)]) pro = some (4, false, [.diag (.outOfBounds 0xFFFD)]) := by decide

theorem test_ldi : after 0x8840000C (withWords [(0x10, 0x200), (0x200, 0x80000001)] []) (rpc (.gpr 1)) = some (0x80000001, 4, 4) := by decide

theorem test_ldi_second_read_out : after 0x8840000C (withWords [(0x10, 0x3FFFD)] [(.gpr 1, 7), (.cond, 1)]) (fun t => (rpc (.gpr 1) t, pro t)) = some ((7, 4, 1), (4, false, [.diag (.outOfBounds 0x3FFFD)])) := by decide

theorem test_sti : after 0x9040000C (withWords [(0x10, 0x200)] [(.gpr 1, 0xCAFEF00D)]) (fun t => t.mem) = some [(0, 0x0C), (2, 0x40), (3, 0x90), (0x11, 2), (0x200, 0x0D), (0x201, 0xF0), (0x202, 0xFE), (0x203, 0xCA)] := by decide

theorem test_sti_pointer_cell_out : after 0x9040FFFF (withMemSize 65536 [(.gpr 1, 1)]) pro = some (4, false, [.diag (.outOfBounds 0x10003)]) := by decide

theorem test_lea : after 0x98400010 (withRegs [(.pc, 0x20)]) (rpc (.gpr 1)) = some (0x34, 0x24, 1) := by decide

theorem test_lea_beyond_memory : after 0x9840FFFF (withRegs [(.pc, 0x3FFF8)]) (rpc (.gpr 1)) = some (0x4FFFB, 0x3FFFC, 1) := by decide

theorem test_jmp_abs : after 0xA0000040 (withRegs [(.cond, 4)]) (rpc .pc) = some (0x40, 0x40, 4) := by decide

theorem test_jmp_rel_forward : after 0xA800FFFC (withRegs [(.pc, 0x10)]) (rpc .pc) = some (0x10010, 0x10010, 0) := by decide

theorem test_halt : after 0xCFFEFFFF (withRegs [(.pc, 0x10)]) pro = some (0x14, false, []) := by decide

theorem test_input : after 0xB0400000 (State.reset.supplyInt (.value 0xFFFFFFFF)) (rpc (.gpr 1)) = some (0xFFFFFFFF, 4, 4) := by decide

theorem test_input_malformed : after 0xB0400000 ((withRegs [(.gpr 1, 9), (.cond, 1)]).supplyInt .malformed) (fun t => (rpc (.gpr 1) t, pro t)) = some ((9, 4, 1), (4, false, [.diag .malformedInput])) := by decide

theorem test_output_pc : after 0xBC000000 (withRegs [(.pc, 8)]) pro = some (0xC, true, [.outInt 16 0xC]) := by decide

theorem test_trap_getc : after 0xC0000020 ((withRegs [(.gpr 0, 0xFFFFFFFF), (.cond, 4)]).supplyChar 0x41) (rpc (.gpr 0)) = some (0x41, 4, 4) := by decide

theorem test_trap_unknown : after 0xC0000022 State.reset pro = some (4, true, [.diag (.unknownTrapVector 0x22)]) := by decide

/-! Faults, their priority, and the wait. -/

theorem test_trap_out_low_byte : after 0xC000FF21 (withRegs [(.gpr 0, 0x12345648)]) pro = some (4, true, [.outChar 0x48]) := by decide

theorem test_trap_halt : after 0xC7FE0125 State.reset pro = some (4, false, []) := by decide

theorem test_div_by_zero : after 0x20C40000 (withRegs [(.gpr 2, 7), (.gpr 3, 0x55), (.rem, 0x66)]) (fun t => (rpc (.gpr 3) t, t.rem, t.running)) = some ((0x55, 4, 0), 0x66, false) := by decide

theorem test_invalid_r1_first : after 0x0D7E0000 State.reset pro = some (4, false, [.diag (.invalidRegister 21)]) := by decide

theorem test_invalid_before_div : after 0x25020000 (withRegs [(.gpr 1, 5)]) pro = some (4, false, [.diag (.invalidRegister 20)]) := by decide

theorem test_unknown_opcode : after 0x07FFFFFF State.reset pro = some (4, false, [.diag (.unknownOpcode 0)]) := by decide

theorem test_fetch_out : after 0 (withRegs [(.pc, 0x3FFFE)]) pro = some (0x3FFFE, false, [.diag (.outOfBounds 0x3FFFE)]) := by decide

/-- R192: whether the step of the word at PC waits. -/
def waitsOn (w : Nat) (s : State) : Bool :=
  match step (s.withFetchWord 32 w) with
  | .fault .awaitingInput => true
  | _ => false

/-- R192: no answer yet, so the step has no successor; an answer at the other port does not lift the
wait. R150: the register field is checked before the port is asked. -/
theorem test_input_waits :
    waitsOn 0xB0400000 State.reset = true ∧ waitsOn 0xB0400000 (State.reset.supplyChar 0x41) = true ∧
    waitsOn 0xB5000000 State.reset = false := by
  decide

theorem test_trap_getc_waits :
    waitsOn 0xC0000020 State.reset = true ∧ waitsOn 0xC0000020 (State.reset.supplyInt .malformed) = true := by
  decide

/-- R90: a halted machine has no step. -/
theorem test_halted_has_no_step : (match step State.reset.stop with | .fault .halted => true | _ => false) = true := by
  decide

/-- R53's vectors: 16 bytes of memory. -/
theorem test_memory_vectors :
    let s := (withMemSize 16 []).loadWords 0 [0x12345678, 0x89ABCDEF]
    s.mem.loadLE 1 4 = 0xEF123456 ∧ s.loadWord 2 = .ok 0xCDEF1234 ∧
    s.loadWord 13 = .error (.outOfBounds 13) := by
  decide

/-- R208: how a run ended. -/
theorem test_ending :
    after 0xC8000000 State.reset State.ending = some (some .normal) ∧
    after 0x20C40000 State.reset State.ending = some (some (.faulted .divideByZero)) ∧
    after 0xC0000022 State.reset State.ending = some none := by
  decide

/-! Witnesses: for every statement of Certificates/Slice0/Obligations.lean with hypotheses, a state and
operands that meet all of them together, and for each clause a value at the edge of its range. -/

/-- The state after one step. -/
def stepped (s : State) : State := match step s with | .next t => t | _ => s

/-- The state an instruction leaves. -/
def ran (i : Instr) (s : State) : State := match exec i s with | .next t => t | _ => s

/-- The reset state about to run one word at `a`. -/
def about (a : Nat) (w : Word) : State := withWords [(a, w)] [(.pc, BitVec.ofNat 32 a)]

/-- What the next step dispatches, from the word at PC. -/
theorem runs_of_word {s : State} {w : Word} {i : Instr} (h : s.fetch = .ok w) (hd : decode s.cfg.opc w = .ok i) :
    Runs s i := ⟨w, h, hd⟩

/-- The word at PC dispatches nothing else. -/
theorem not_runs_of_word {s : State} {w : Word} {i j : Instr} (h : s.fetch = .ok w)
    (hd : decode s.cfg.opc w = .ok i) (hij : j ≠ i) : ¬ Runs s j := by
  rintro ⟨v, hv, hj⟩
  rw [h] at hv
  cases hv
  rw [hd] at hj
  exact hij (Except.ok.inj hj).symm

theorem witness_DecodeOfEncodeIsTheInstruction : OpcodeMap.specDefault.wf := by decide

theorem witness_EncodeOfDecodeKeepsUsedFields :
    decode OpcodeMap.specDefault 0x40451234 = .ok (.not 1 2) := by decide

theorem witness_UnusedFieldsAreIgnored :
    OpcodeMap.specDefault.lookup (fieldsOf 0xC0000025).opc = some .trap ∧
    AgreeOnUsed .trap (fieldsOf 0xC0000025) (fieldsOf 0xC7FFFF25) := by
  unfold AgreeOnUsed; decide

theorem witness_OpcodeAloneSelectsTheInstruction :
    OpcodeMap.specDefault.wf ∧ (fieldsOf 0xCFFFFFFF).opc = OpcodeMap.specDefault.opcodeOf .halt ∧
    ∀ k, (fieldsOf 0xD0000000).opc ≠ OpcodeMap.specDefault.opcodeOf k := by
  refine ⟨by decide, by decide, fun k => ?_⟩
  cases k <;> decide

/-- The last place an instruction fits. -/
theorem witness_StepRunsTheDecodedInstruction :
    let s := about 0x3FFFC 0x08020005
    s.running = true ∧ s.pc.toNat + 4 ≤ s.cfg.memSize ∧
    decode s.cfg.opc (BitVec.ofNat 32 (s.mem.loadLE s.pc.toNat 4)) = .ok (.add 0 1 5) := by decide

theorem witness_FetchOutOfBoundsHalts :
    let s := withRegs [(.pc, 0x3FFFD)]
    let t := withRegs [(.pc, 0x3FFFC)]
    (s.running = true ∧ s.cfg.memSize < s.pc.toNat + 4) ∧
    (t.running = true ∧ t.pc.toNat + 4 ≤ t.cfg.memSize) := by decide

theorem witness_UnknownOpcodeHalts :
    let s := about 0 0xD0000000
    s.running = true ∧ s.fetch = .ok 0xD0000000 ∧
    ∀ k, s.cfg.opc.opcodeOf k ≠ (fieldsOf 0xD0000000).opc := by
  refine ⟨by decide, by decide, fun k => ?_⟩
  cases k <;> decide

theorem witness_HaltedMachineHasNoStep : State.reset.stop.running = false := rfl

theorem witness_EndedRunNoLongerChanges : State.reset.stop.running = false := rfl

theorem witness_PlacedWordIsTheNextInstruction :
    let s := withRegs [(.pc, 0x3FFFC)]
    s.running = true ∧ s.pc.toNat + 4 ≤ s.cfg.memSize ∧
    decode s.cfg.opc 0x9040000C = .ok (.sti 1 0xC) := by decide

theorem witness_AddSubMulWriteTheWrappedResult : regOf 16 = some .pc ∧ regOf 19 = some .comp := by decide

/-- A general destination, and the two whose quotient is lost. -/
theorem witness_DivWritesFloorQuotientAndRemainder :
    (regOf 3 = some (.gpr 3) ∧ regOf 17 = some .rem ∧ regOf 18 = some .cond) ∧
    regOf 15 = some (.gpr 15) ∧ (1 : Imm) ≠ 0 ∧ (0xFFFF : Imm) ≠ 0 := by decide

theorem witness_DivideByZeroHalts : regOf 17 = some .rem ∧ regOf 2 = some (.gpr 2) := by decide

theorem witness_LogicActsBitByBit : regOf 0 = some (.gpr 0) ∧ regOf 19 = some .comp := by decide

theorem witness_ShiftsAreLogicalAndUnmasked : regOf 18 = some .cond ∧ regOf 16 = some .pc := by decide

theorem witness_ComparesWriteCompOnly : regOf 19 = some .comp ∧ regOf 15 = some (.gpr 15) := by decide

theorem witness_LoadAndLeaWriteTheirOperand : regOf 16 = some .pc := by decide

/-- The last address a word fits at, in a memory of 64 KiB. -/
theorem witness_StoreWritesFourBytes :
    regOf 19 = some .comp ∧ absoluteAddr 0xFFFC + 4 ≤ (withMemSize 65536 []).cfg.memSize := by decide

/-- A pointer to the last word. -/
theorem witness_LdiLoadsThroughThePointer :
    let s := withWords [(0x10, 0x3FFFC)] [(.pc, 4)]
    regOf 1 = some (.gpr 1) ∧ s.pc.toNat + (0xC : Imm).toNat + 4 ≤ s.cfg.memSize ∧
    s.mem.loadLE (s.pc.toNat + (0xC : Imm).toNat) 4 + 4 ≤ s.cfg.memSize := by decide

theorem witness_StiStoresThroughThePointer :
    let s := withWords [(0x10, 0x3FFFC)] [(.pc, 4)]
    regOf 1 = some (.gpr 1) ∧ pointerAddr s 0xC + 4 ≤ s.cfg.memSize ∧
    s.mem.loadLE (pointerAddr s 0xC) 4 + 4 ≤ s.cfg.memSize := by decide

/-- A store one byte too high, a pointer cell one byte too high, a pointer one byte too high. -/
theorem witness_DataAccessOutOfBoundsHalts :
    let s := withMemSize 65536 []
    let t := withWords [(0x3FFFC, 0x3FFFD)] [(.pc, 0x3FFFC)]
    regOf 1 = some (.gpr 1) ∧
    s.cfg.memSize < (0xFFFD : Imm).toNat + 4 ∧
    t.cfg.memSize < t.pc.toNat + (1 : Imm).toNat + 4 ∧
    (t.pc.toNat + (0 : Imm).toNat + 4 ≤ t.cfg.memSize ∧
      t.cfg.memSize < t.mem.loadLE (t.pc.toNat + (0 : Imm).toNat) 4 + 4) := by decide

theorem witness_HaltAndHaltTrapClearRunning :
    (Instr.trap 0x25 = .trap State.reset.cfg.trapHaltVec ∧ State.reset.cfg.trapHaltVec ≠ 0x20 ∧
      State.reset.cfg.trapHaltVec ≠ 0x21) ∧ Instr.halt = .halt := by decide

theorem witness_InputWritesTheAnswer :
    regOf 16 = some .pc ∧ (State.reset.supplyInt (.value 0x80000000)).intIn = [.value 0x80000000] := by decide

theorem witness_MalformedInputHalts :
    regOf 19 = some .comp ∧ (State.reset.supplyInt .malformed).intIn = [.malformed] := by decide

/-- Each of the two ports. -/
theorem witness_WaitingStepHasNoSuccessor :
    ((about 0 0xB0400000).running = true ∧ Runs (about 0 0xB0400000) (.input 1) ∧
      Waits (.input 1) (about 0 0xB0400000)) ∧
    ((about 0 0xC0000020).running = true ∧ Runs (about 0 0xC0000020) (.trap 0x20) ∧
      Waits (.trap 0x20) (about 0 0xC0000020)) :=
  ⟨⟨by decide, runs_of_word (w := 0xB0400000) (by decide) (by decide), .inl ⟨1, rfl, by decide, by decide⟩⟩,
    ⟨by decide, runs_of_word (w := 0xC0000020) (by decide) (by decide), .inr ⟨rfl, by decide⟩⟩⟩

theorem witness_OutputEmitsTheRegister : regOf 18 = some .cond := by decide

/-- The largest character an 8-bit port has. -/
theorem witness_CharacterInputOverwritesR0 :
    (State.reset.supplyChar 0xFF).charIn = [0xFF] ∧
    (0xFF : Word).toNat < 2 ^ State.reset.cfg.charInBits := by decide

theorem witness_UnknownTrapVectorIsReportedOnly :
    (0x22 : TrapVec) ≠ 0x20 ∧ (0x22 : TrapVec) ≠ 0x21 ∧ (0x22 : TrapVec) ≠ State.reset.cfg.trapHaltVec := by
  decide

/-- The first field and the second, at the two ends of 20 .. 31. -/
theorem witness_InvalidRegisterIsRaisedFirst :
    (usedRegs (.add 20 31 0)).find? (fun g => decide (20 ≤ g.toNat)) = some 20 ∧
    (usedRegs (.div 19 31 0)).find? (fun g => decide (20 ≤ g.toNat)) = some 31 := by decide

/-- An instruction that waits, and INPUT with an answer, which does not. -/
theorem witness_EveryInstructionCompletesUnlessItWaits :
    Waits (.input 19) State.reset ∧ ¬ Waits (.input 19) (State.reset.supplyInt .malformed) := by
  refine ⟨.inl ⟨19, rfl, by decide, by decide⟩, ?_⟩
  rintro (⟨f, -, -, h⟩ | ⟨h, -⟩) <;> cases h

theorem witness_OnlyNamedRegistersChange :
    exec (.div 3 2 3) (withRegs [(.gpr 2, 7)]) = .next (ran (.div 3 2 3) (withRegs [(.gpr 2, 7)])) := rfl

/-- The byte after the last one stored, and a form that stores nothing. -/
theorem witness_OnlyStoresChangeMemory :
    (exec (.store 1 0x100) State.reset = .next (ran (.store 1 0x100) State.reset) ∧
      ∀ e, storeAddr (.store 1 0x100) State.reset = some e → 0x104 < e ∨ e + 4 ≤ 0x104) ∧
    (exec .halt State.reset = .next (ran .halt State.reset) ∧
      ∀ e, storeAddr .halt State.reset = some e → 0x100 < e ∨ e + 4 ≤ 0x100) := by
  refine ⟨⟨rfl, ?_⟩, rfl, ?_⟩ <;> intro e h <;> cases h
  decide

theorem witness_OneEventAndOneInputAtMost :
    step (about 0 0xB8400000) = .next (stepped (about 0 0xB8400000)) := rfl

/-- A failed fetch, a jump, and a destination that is PC. -/
theorem witness_PcLeavesSequenceOnlyByJumps :
    let s := withRegs [(.pc, 0x3FFFD)]
    let u := about 0 0x7C000040
    let v := about 0 0xA8000008
    (step s = .next (stepped s) ∧ (stepped s).pc ≠ s.pc + 4) ∧
    (step u = .next (stepped u) ∧ (stepped u).pc ≠ u.pc + 4) ∧
    (step v = .next (stepped v) ∧ (stepped v).pc ≠ v.pc + 4) :=
  ⟨⟨rfl, by decide⟩, ⟨rfl, by decide⟩, ⟨rfl, by decide⟩⟩

/-- A compare, and an instruction that is none and does not name register 19. -/
theorem witness_CompKeepsTheLastCompare :
    (exec (.cmpLt 1 2) State.reset = .next (ran (.cmpLt 1 2) State.reset) ∧
      regOf 1 = some (.gpr 1) ∧ regOf 2 = some (.gpr 2)) ∧
    (exec (.load 18 5) State.reset = .next (ran (.load 18 5) State.reset) ∧
      (∀ r1 r2, Instr.load 18 5 ≠ .cmpEq r1 r2 ∧ Instr.load 18 5 ≠ .cmpNeq r1 r2 ∧
        Instr.load 18 5 ≠ .cmpGt r1 r2 ∧ Instr.load 18 5 ≠ .cmpLt r1 r2) ∧
      destField (.load 18 5) ≠ some 19) :=
  ⟨⟨rfl, by decide, by decide⟩, rfl, by simp, by decide⟩

theorem witness_CompStaysBoolean :
    let s := about 0 0x70440000
    step s = .next (stepped s) ∧ (s.comp = 0 ∨ s.comp = 1) ∧ ∀ i, Runs s i → destField i ≠ some 19 := by
  refine ⟨rfl, by decide, fun i hi => ?_⟩
  by_cases h : i = .cmpLt 1 2
  · subst h; decide
  · exact absurd hi (not_runs_of_word (w := 0x70440000) (i := .cmpLt 1 2) (by decide) (by decide) h)

/-- STORE with the absolute address 4 at `PCn` = 4, and STI with the pointer cell at 0x14 holding 4. -/
theorem witness_StoredInstructionIsFetchedNext :
    let s := withWords [(0x14, 4)] [(.pc, 4), (.gpr 1, 0xC8000000)]
    regOf 1 = some (.gpr 1) ∧ s.running = true ∧
    (exec (.store 1 4) s = .next (ran (.store 1 4) s) ∧ (ran (.store 1 4) s).running = true ∧
      storeAddr (.store 1 4) s = some s.pc.toNat) ∧
    (exec (.sti 1 0x10) s = .next (ran (.sti 1 0x10) s) ∧ (ran (.sti 1 0x10) s).running = true ∧
      storeAddr (.sti 1 0x10) s = some s.pc.toNat) :=
  ⟨by decide, by decide, ⟨rfl, by decide, by decide⟩, rfl, by decide, by decide⟩

/-- HALT, the halt trap, a fatal fault. -/
theorem witness_OnlyHaltsAndFatalFaultsEndARun :
    (step (about 0 0xC8000000) = .next (stepped (about 0 0xC8000000)) ∧
      (stepped (about 0 0xC8000000)).running = false) ∧
    (step (about 0 0xC0000025) = .next (stepped (about 0 0xC0000025)) ∧
      (stepped (about 0 0xC0000025)).running = false) ∧
    (step (about 0 0x20C40000) = .next (stepped (about 0 0x20C40000)) ∧
      Diag.divideByZero.fatal = true ∧
      (stepped (about 0 0x20C40000)).trace = (about 0 0x20C40000).trace ++ [.diag .divideByZero]) :=
  ⟨⟨rfl, by decide⟩, ⟨rfl, by decide⟩, rfl, by decide, by decide⟩

/-- A fetch fault, a fault after the advance, a malformed answer. -/
theorem witness_FatalFaultsArePrecise :
    let s := withRegs [(.pc, 0x3FFFD)]
    let u := about 0x3FFFC 0x20C40000
    let v := (about 0 0xB0400000).supplyInt .malformed
    (step s = .next (stepped s) ∧ (Diag.outOfBounds 0x3FFFD).fatal = true ∧
      (stepped s).trace = s.trace ++ [.diag (.outOfBounds 0x3FFFD)]) ∧
    (step u = .next (stepped u) ∧ Diag.divideByZero.fatal = true ∧
      (stepped u).trace = u.trace ++ [.diag .divideByZero]) ∧
    (step v = .next (stepped v) ∧ Diag.malformedInput.fatal = true ∧
      (stepped v).trace = v.trace ++ [.diag .malformedInput]) :=
  ⟨⟨rfl, by decide, by decide⟩, ⟨rfl, by decide, by decide⟩, ⟨rfl, by decide, by decide⟩⟩

/-- A fault and a normal end, in states that meet the invariant. -/
theorem witness_EndingIsTheLastStepsFault :
    let s := about 0 0x20C40000
    let u := about 0 0xC8000000
    (s.Inv ∧ step s = .next (stepped s) ∧ (stepped s).running = false) ∧
    (u.Inv ∧ step u = .next (stepped u) ∧ (stepped u).running = false) :=
  ⟨⟨by decide, rfl, by decide⟩, ⟨by decide, rfl, by decide⟩⟩

/-- The last word, and one byte higher. -/
theorem witness_MemReadIsLittleEndian :
    0x3FFFC + 4 ≤ State.reset.cfg.memSize ∧ State.reset.cfg.memSize < 0x3FFFD + 4 := by decide

theorem witness_MemWriteChangesExactlyItsBytes :
    0x3FFFC + 4 ≤ State.reset.cfg.memSize ∧ State.reset.cfg.memSize < 0x3FFFD + 4 := by decide

theorem witness_StoreThenLoadReturnsTheValue :
    0x3FFFC + 4 ≤ State.reset.cfg.memSize ∧ 0xFFFFFFFF < 2 ^ 32 := by decide

theorem witness_StepKeepsTheInvariant :
    let s := about 0 0x80400100
    s.Inv ∧ step s = .next (stepped s) :=
  ⟨by decide, rfl⟩

theorem witness_OutputIsNeverRead :
    step (about 0 0xB8400000) = .next (stepped (about 0 0xB8400000)) := rfl

theorem witness_PendingInputMattersToInputOnly :
    let s := about 0 0x08420001
    step s = .next (stepped s) ∧ (∀ f, ¬ Runs s (.input f)) ∧ ¬ Runs s (.trap 0x20) := by
  refine ⟨rfl, fun f => ?_, ?_⟩ <;>
    exact not_runs_of_word (w := 0x08420001) (i := .add 1 1 1) (by decide) (by decide) (by simp)

end Sys2Proof.Machine
end

section
/-! The bounds-checked accesses (20_memory.md R52 to R55): a read's base-256 digits, a write's bytes and
frame, and a read of the range just written. -/

namespace Sys2Proof.Machine

/-! Bytes and numbers. -/

/-- Digit `k` of a multi-byte read is the byte at offset `k` (R53). -/
theorem Memory.loadLE_digit (m : Memory) (a : Nat) {n k : Nat} (h : k < n) :
    m.loadLE a n / 256 ^ k % 256 = (m.readByte (a + k)).toNat := by
  induction n generalizing a k with
  | zero => omega
  | succ n ih =>
    have hb : (m.readByte a).toNat < 256 := (m.readByte a).isLt
    simp only [Memory.loadLE]
    cases k with
    | zero => simp only [pow_zero, Nat.div_one, Nat.add_zero]; omega
    | succ k =>
      rw [pow_succ', ← Nat.div_div_eq_div_mul, Nat.add_mul_div_left _ _ (by decide),
        Nat.div_eq_of_lt hb, Nat.zero_add, ih (a + 1) (by omega), Nat.add_right_comm, Nat.add_assoc]

/-- Byte `k` of a multi-byte write, as digit `k` of the value (R54). -/
theorem Memory.toNat_readByte_storeLE (m : Memory) (a n v : Nat) {k : Nat} (h : k < n) :
    ((m.storeLE a n v).readByte (a + k)).toNat = v / 256 ^ k % 256 := by
  rw [Memory.readByte_storeLE_inside m a n v h, BitVec.toNat_ofNat]

/-- Reading the range just written gives the value, cut to the bytes of the range. -/
theorem Memory.loadLE_storeLE (m : Memory) (a n v : Nat) :
    (m.storeLE a n v).loadLE a n = v % 256 ^ n := by
  induction n generalizing m a v with
  | zero => simp [Memory.loadLE, Nat.mod_one]
  | succ n ih =>
    have low : ((m.storeLE a (n + 1) v).readByte a).toNat = v % 256 := by
      simpa using Memory.toNat_readByte_storeLE m a (n + 1) v (Nat.succ_pos n)
    have high : (m.storeLE a (n + 1) v).loadLE (a + 1) n = v / 256 % 256 ^ n := ih _ _ _
    rw [Memory.loadLE, low, high, pow_succ', Nat.mod_mul]

/-! Replacing the whole of memory. -/

/-- No register lies in the byte array, so replacing the array leaves all of them alone. -/
@[simp] theorem State.reg_withMem (s : State) (m : Memory) (r : Reg) :
    ({ s with mem := m } : State).reg r = s.reg r := by
  cases r <;> rfl

/-- A multi-byte write's frame (R54): its own bytes, and nothing else. -/
theorem State.storesOnly_storeLE (s : State) (addr n v : Nat) :
    StoresOnly s { s with mem := s.mem.storeLE addr n v } addr n v :=
  ⟨fun _ hk => s.mem.toNat_readByte_storeLE addr n v hk,
    fun _ ha => s.mem.readByte_storeLE_outside addr n v ha,
    fun r _ => s.reg_withMem _ r, rfl, rfl, rfl, rfl, rfl⟩

/-! The statements. -/

/-- Settles O45: a read that fits is `loadLE`, whose bound and digits are the lemmas above. -/
theorem memReadIsLittleEndian : Obligations.MemReadIsLittleEndian := by
  intro s addr n
  refine ⟨fun fits => ⟨s.mem.loadLE addr n, State.memRead_of_le fits, ?_, fun k hk => ?_⟩,
    State.memRead_of_gt⟩
  · have bound : s.mem.loadLE addr n < (2 ^ 8) ^ n := s.mem.loadLE_lt addr n
    rwa [← pow_mul] at bound
  · exact s.mem.loadLE_digit addr hk

/-- Settles O46: a write that fits is `storeLE` on memory, with that operation's frame. -/
theorem memWriteChangesExactlyItsBytes : Obligations.MemWriteChangesExactlyItsBytes := fun s addr n v =>
  ⟨fun fits => ⟨_, State.memWrite_of_le v fits, s.storesOnly_storeLE addr n v⟩,
    State.memWrite_of_gt v⟩

/-- Settles O47: four bytes hold all of a value below 2^32, so the cut of `loadLE_storeLE` keeps it. -/
theorem storeThenLoadReturnsTheValue : Obligations.StoreThenLoadReturnsTheValue := by
  intro s addr v fits small
  refine ⟨_, State.memWrite_of_le v fits, ?_⟩
  have whole : v % 256 ^ 4 = v := Nat.mod_eq_of_lt small
  rw [State.memRead_of_le (by exact fits), Memory.loadLE_storeLE, whole]

end Sys2Proof.Machine
end

section
/-! The reserved bit of an instruction word (30_encoding.md R76, R77, R79): no field holds bit 16, and
dispatch reads a word through its fields alone. -/

namespace Sys2Proof

/-- R77 and R79: each of the four extractions passes over bit 16. -/
@[simp] theorem fieldsOf_xor_bit16 (w : Word) : fieldsOf (w ^^^ 0x10000) = fieldsOf w := by
  have opc : (0x10000 : Word).extractLsb' 27 5 = 0#5 := by decide
  have r1 : (0x10000 : Word).extractLsb' 22 5 = 0#5 := by decide
  have r2 : (0x10000 : Word).extractLsb' 17 5 = 0#5 := by decide
  have imm : (0x10000 : Word).extractLsb' 0 16 = 0#16 := by decide
  simp only [fieldsOf, BitVec.extractLsb'_xor, opc, r1, r2, imm, BitVec.xor_zero]

/-- Under one opcode map, a word's fields decide what it decodes to (R77, R83). -/
theorem decode_congr_fieldsOf (m : OpcodeMap) {v w : Word} (h : fieldsOf v = fieldsOf w) :
    decode m v = decode m w := by
  simp only [decode, h]

end Sys2Proof

namespace Sys2Proof.Machine

/-- Dispatch reads a word through `decode`, so its fields decide the instruction or the fault (R83, R90). -/
theorem State.dispatch_congr_fieldsOf (s : State) {v w : Word} (h : fieldsOf v = fieldsOf w) :
    s.dispatch v = s.dispatch w := by
  simp only [State.dispatch, decode_congr_fieldsOf s.cfg.opc h]

/-- Settles O4: inverting bit 16 keeps the four fields, and dispatch depends on nothing else. -/
theorem reservedBitIsIgnored : Obligations.ReservedBitIsIgnored := fun s w =>
  s.dispatch_congr_fieldsOf (fieldsOf_xor_bit16 w)

end Sys2Proof.Machine
end

section
/-! The life of COMP (42_compare.md R124; 10_state.md R32): a compare writes 0 or 1 to it and nothing
else, and beside the compares only an instruction whose destination field is 19 can write it. -/

namespace Sys2Proof.Machine

/-! Operations that do not write COMP. -/

/-- A flag update writes COND alone (R30). -/
@[simp] theorem State.setFlags_comp (s : State) (r : Reg) : (s.setFlags r).comp = s.comp := rfl

/-- A register write reaches COMP by its name alone. -/
theorem State.setReg_comp_of_ne (s : State) {d : Reg} (v : Word) (h : d ≠ .comp) :
    (s.setReg d v).comp = s.comp :=
  s.reg_setReg_ne v h.symm

/-- A written destination other than COMP leaves COMP alone, its flag update included. -/
theorem State.writeDest_comp_of_ne (s : State) {d : Reg} (v : Word) (h : d ≠ .comp) :
    (s.writeDest d v).comp = s.comp :=
  s.reg_writeDest_ne v h.symm (by decide)

/-! The compares. -/

/-- What a compare leaves in COMP (R32). -/
theorem State.setComp_comp_boolean (s : State) (b : Bool) :
    (s.setComp b).comp = 0 ∨ (s.setComp b).comp = 1 := by
  cases b
  · exact .inl rfl
  · exact .inr rfl

/-- A compare writes no other cell than COMP; COND is the one R124 speaks of. -/
@[simp] theorem State.setComp_cond (s : State) (b : Bool) : (s.setComp b).cond = s.cond := rfl

/-- Each of the four compares is the template with a relation of its own (R120 to R123). -/
theorem exec_compare_eq {i : Instr} {r1 r2 : RegField} (s : State)
    (hi : i = .cmpEq r1 r2 ∨ i = .cmpNeq r1 r2 ∨ i = .cmpGt r1 r2 ∨ i = .cmpLt r1 r2) :
    ∃ rel, exec i s = compareRegs rel r1 r2 s := by
  rcases hi with rfl | rfl | rfl | rfl
  · exact ⟨fun x y => x == y, rfl⟩
  · exact ⟨fun x y => x != y, rfl⟩
  · exact ⟨fun x y => decide (signed x > signed y), rfl⟩
  · exact ⟨fun x y => decide (signed x < signed y), rfl⟩

/-- On fields that name cells a compare completes, and its write of COMP is all it does. -/
theorem exec_compare_of_some {i : Instr} {r1 r2 : RegField} {a b : Reg} (s : State)
    (hi : i = .cmpEq r1 r2 ∨ i = .cmpNeq r1 r2 ∨ i = .cmpGt r1 r2 ∨ i = .cmpLt r1 r2)
    (h1 : regOf r1 = some a) (h2 : regOf r2 = some b) : ∃ c, exec i s = .next (s.setComp c) := by
  obtain ⟨rel, hrel⟩ := exec_compare_eq s hi
  exact ⟨rel (s.reg a) (s.reg b), hrel.trans (compareRegs_of_some rel s h1 h2)⟩

/-! Every other instruction. -/

/-- COMP is register 19 (R20). -/
theorem regOf_eq_comp_iff (f : RegField) : regOf f = some .comp ↔ f = 19 := by
  revert f; decide

/-- An instruction that does not name register 19 as its destination has another destination than COMP. -/
theorem dest_ne_comp {i : Instr} {f : RegField} {d : Reg} (hf : destField i = some f)
    (hd : regOf f = some d) (h19 : destField i ≠ some 19) : d ≠ .comp := by
  rintro rfl
  exact h19 (by rw [hf, (regOf_eq_comp_iff f).mp hd])

/-- COMP over every shape of effect but a compare's: two of them write a named destination, and the
others write no register or a fixed one (R124). -/
theorem Effect.comp_eq {i : Instr} {s t : State} (e : Effect i s t)
    (hc : ∀ r1 r2, i ≠ .cmpEq r1 r2 ∧ i ≠ .cmpNeq r1 r2 ∧ i ≠ .cmpGt r1 r2 ∧ i ≠ .cmpLt r1 r2)
    (h19 : destField i ≠ some 19) : t.comp = s.comp := by
  cases e with
  | compared b r1 r2 hi =>
    obtain ⟨hEq, hNeq, hGt, hLt⟩ := hc r1 r2
    simp [hEq, hNeq, hGt, hLt] at hi
  | dest f d v hf hd _ => exact s.writeDest_comp_of_ne v (dest_ne_comp hf hd h19)
  | answered f d v rest hi hd _ =>
    exact State.writeDest_comp_of_ne _ v (dest_ne_comp (by rw [hi]; rfl) hd h19)
  | divided r1 r2 imm d q m hi hd =>
    have hd' : d ≠ .comp := dest_ne_comp (by rw [hi]; rfl) hd h19
    rw [State.setFlags_comp, State.setReg_rem_comp, s.setReg_comp_of_ne q hd']
  | raised | malformed | reported => exact State.raise_comp _ _
  | stored | jumped | stopped | gotChar | printed | putChar => rfl

/-- Settles O39: a compare is `setComp`, and every other effect keeps COMP unless its destination is 19. -/
theorem compKeepsTheLastCompare : Obligations.CompKeepsTheLastCompare := by
  refine ⟨State.setFlags_comp, fun i s t h => ⟨?_, fun hc h19 => (exec_effect h).comp_eq hc h19⟩⟩
  rintro ⟨r1, r2, a, b, hi, h1, h2⟩
  obtain ⟨c, hs⟩ := exec_compare_of_some s hi h1 h2
  obtain rfl : s.setComp c = t := Host.Outcome.next.inj (hs.symm.trans h)
  exact ⟨s.setComp_comp_boolean c, s.setComp_cond c⟩

end Sys2Proof.Machine
end

section
/-! Traps that only report (45_io_trap.md R155, R158): the character output and the unknown vector. Each
is a single `emit`, and `emit` adds one event to the output and touches nothing else. -/

namespace Sys2Proof.Machine

/-- The frame of `emit` (R42): everything but the output is as it was. -/
theorem State.emit_frame (s : State) (e : Event) :
    SameRegsBut s (s.emit e) [] ∧ SameMemory s (s.emit e) ∧ (s.emit e).running = s.running ∧
      (s.emit e).cfg = s.cfg ∧ (s.emit e).intIn = s.intIn ∧ (s.emit e).charIn = s.charIn :=
  ⟨fun r _ => s.emit_reg e r, fun _ => rfl, rfl, rfl, rfl, rfl⟩

/-- The one fault that is not fatal is its diagnostic and no more (R172, R177). -/
theorem State.raise_unknownTrapVector (s : State) (vec : TrapVec) :
    s.raise (.unknownTrapVector vec) = s.emit (.diag (.unknownTrapVector vec)) := rfl

/-- Vector 0x21 is the character output (R152, R155), whatever the halt vector is. -/
theorem exec_trap_out (s : State) :
    exec (.trap 0x21) s = .next (s.emit (.outChar ((s.reg (.gpr 0)).extractLsb' 0 8))) := rfl

/-- A vector that selects none of the three handlers is reported (R152, R158). -/
theorem exec_trap_unknown (s : State) {vec : TrapVec} (notGetc : vec ≠ 0x20) (notOut : vec ≠ 0x21)
    (notHalt : vec ≠ s.cfg.trapHaltVec) :
    exec (.trap vec) s = .next (s.emit (.diag (.unknownTrapVector vec))) := by
  have handler : execTrap vec s = trapUnknown vec s := by
    rw [execTrap, if_neg (by exact notGetc), if_neg (by exact notOut), if_neg notHalt]
  calc exec (.trap vec) s
      _ = trapUnknown vec s := handler
      _ = .next (s.emit (.diag (.unknownTrapVector vec))) := by
        rw [trapUnknown, s.raise_unknownTrapVector]

/-- Settles O31: the byte emitted is the low 8 bits of R0, and an emit has `emit_frame`. -/
theorem characterOutputEmitsLowByteOfR0 : Obligations.CharacterOutputEmitsLowByteOfR0 := by
  intro s
  have low : ((s.reg (.gpr 0)).extractLsb' 0 8).toNat = (s.reg (.gpr 0)).toNat % 256 := by
    rw [BitVec.extractLsb'_toNat, Nat.shiftRight_zero]
  exact ⟨_, _, exec_trap_out s, s.emit_trace _, low, s.emit_frame _⟩

/-- Settles O32: an unknown vector is reported by an emit, with `emit_frame`. -/
theorem unknownTrapVectorIsReportedOnly : Obligations.UnknownTrapVectorIsReportedOnly :=
  fun s _ notGetc notOut notHalt =>
    ⟨_, exec_trap_unknown s notGetc notOut notHalt, s.emit_trace _, s.emit_frame _⟩

end Sys2Proof.Machine
end

section
/-! The fatal faults (60_exceptions.md R171 to R176): raising one is its diagnostic and `running` false
and nothing else, so each statement turns on which fault the step or the instruction raises. -/

namespace Sys2Proof.Machine

/-! Raising a fatal fault. -/

/-- What raising a fatal fault does, with its frame (R171). -/
theorem State.faultsWith_raise (s : State) {d : Diag} (fatal : d.fatal = true) :
    FaultsWith s (s.raise d) d :=
  ⟨s.raise_trace d, by simp [fatal], fun r _ => s.raise_reg d r, fun _ => by rw [s.raise_mem],
    s.raise_cfg d, s.raise_intIn d, s.raise_charIn d⟩

/-- An answer that is a raised fatal fault is a next state in which that fault was taken. -/
theorem exists_faultsWith_of_raise {s : State} {d : Diag} {answer : Result} (fatal : d.fatal = true)
    (h : answer = .next (s.raise d)) : ∃ t, answer = .next t ∧ FaultsWith s t d :=
  ⟨_, h, s.faultsWith_raise fatal⟩

/-! The step, by what fetch and dispatch give (R90). -/

/-- A fetch fault is taken in the state as it stands, `PC` not advanced (R28, R173). -/
theorem step_of_fetch_error {s : State} {d : Diag} (running : s.running = true)
    (h : s.fetch = .error d) : step s = .next (s.raise d) := by
  simp [step, running, h]

/-- After the fetch the step is dispatch and execution, on the advanced `PC`. -/
theorem step_of_fetch {s : State} {iw : Word} (running : s.running = true) (h : s.fetch = .ok iw) :
    step s = s.advancePc.guard (s.dispatch iw) fun i => exec i s.advancePc := by
  simp [step, running, h]

theorem State.fetch_of_le {s : State} (h : s.pc.toNat + 4 ≤ s.cfg.memSize) :
    s.fetch = .ok (BitVec.ofNat 32 (s.mem.loadLE s.pc.toNat 4)) := by
  rw [s.fetch_eq, if_pos h]

theorem State.fetch_of_gt {s : State} (h : s.cfg.memSize < s.pc.toNat + 4) :
    s.fetch = .error (.outOfBounds s.pc.toNat) := by
  rw [s.fetch_eq, if_neg (Nat.not_le_of_lt h)]

/-- An opcode value that no mnemonic has is the fault of dispatch (R83). -/
theorem State.dispatch_of_unassigned {s : State} {iw : Word}
    (h : ∀ k, s.cfg.opc.opcodeOf k ≠ (fieldsOf iw).opc) :
    s.dispatch iw = .error (.unknownOpcode (fieldsOf iw).opc) := by
  simp [State.dispatch, decode, OpcodeMap.lookup_none_iff.mpr h]

/-! An instruction's checks, by what they give (R91). -/

/-- A field that names a cell passes its check. -/
theorem guard_checkReg_of_some {f : RegField} {r : Reg} (s : State) (k : Reg → Result)
    (h : regOf f = some r) : s.guard (checkReg f) k = k r := by
  rw [checkReg_of_some h, State.guard_ok]

theorem guard_loadWord_of_le {s : State} {a : Nat} (k : Word → Result) (h : a + 4 ≤ s.cfg.memSize) :
    s.guard (s.loadWord a) k = k (BitVec.ofNat 32 (s.mem.loadLE a 4)) := by
  rw [s.loadWord_eq, if_pos h, State.guard_ok]

theorem guard_loadWord_of_gt {s : State} {a : Nat} (k : Word → Result) (h : s.cfg.memSize < a + 4) :
    s.guard (s.loadWord a) k = .next (s.raise (.outOfBounds a)) := by
  rw [s.loadWord_eq, if_neg (Nat.not_le_of_lt h), State.guard_error]

theorem guard_storeWord_of_gt {s : State} {a : Nat} (v : Word) (k : State → Result)
    (h : s.cfg.memSize < a + 4) :
    s.guard (s.storeWord a v) k = .next (s.raise (.outOfBounds a)) := by
  rw [s.storeWord_eq, if_neg (Nat.not_le_of_lt h), State.guard_error]

/-! The instructions that raise one of these faults. -/

/-- DIV checks its immediate after its two fields and before any write (R103, R175). -/
theorem exec_div_zero {r1 r2 : RegField} {d a : Reg} (s : State) (h1 : regOf r1 = some d)
    (h2 : regOf r2 = some a) : exec (.div r1 r2 0) s = .next (s.raise .divideByZero) :=
  withTwoRegs_of_some s _ h1 h2

section DataAccess

variable {s : State} {r1 : RegField} {imm : Imm} {r : Reg} (named : regOf r1 = some r)
include named

/-- STORE past the end of memory (R131, R174). -/
theorem exec_store_outside (outside : s.cfg.memSize < absoluteAddr imm + 4) :
    exec (.store r1 imm) s = .next (s.raise (.outOfBounds (absoluteAddr imm))) :=
  calc exec (.store r1 imm) s
    _ = s.guard (s.storeWord (absoluteAddr imm) (s.reg r)) .next := guard_checkReg_of_some s _ named
    _ = .next (s.raise (.outOfBounds (absoluteAddr imm))) := guard_storeWord_of_gt _ _ outside

/-- LDI whose pointer cell is past the end of memory (R132, R174). -/
theorem exec_ldi_cell_outside (outside : s.cfg.memSize < pointerAddr s imm + 4) :
    exec (.ldi r1 imm) s = .next (s.raise (.outOfBounds (pointerAddr s imm))) :=
  (guard_checkReg_of_some s _ named).trans (guard_loadWord_of_gt _ outside)

/-- STI whose pointer cell is past the end of memory (R133, R174). -/
theorem exec_sti_cell_outside (outside : s.cfg.memSize < pointerAddr s imm + 4) :
    exec (.sti r1 imm) s = .next (s.raise (.outOfBounds (pointerAddr s imm))) :=
  (guard_checkReg_of_some s _ named).trans (guard_loadWord_of_gt _ outside)

/-- LDI whose pointer cell fits and names a word past the end of memory: the fault comes before the
register write (R174). -/
theorem exec_ldi_target_outside (cell : pointerAddr s imm + 4 ≤ s.cfg.memSize)
    (outside : s.cfg.memSize < s.mem.loadLE (pointerAddr s imm) 4 + 4) :
    exec (.ldi r1 imm) s = .next (s.raise (.outOfBounds (s.mem.loadLE (pointerAddr s imm) 4))) :=
  calc exec (.ldi r1 imm) s
    _ = s.guard (s.loadWord (pointerAddr s imm)) _ := guard_checkReg_of_some s _ named
    _ = s.guard (s.loadWord (BitVec.ofNat 32 (s.mem.loadLE (pointerAddr s imm) 4)).toNat) _ :=
      guard_loadWord_of_le _ cell
    _ = .next (s.raise (.outOfBounds (s.mem.loadLE (pointerAddr s imm) 4))) := by
      rw [Memory.toNat_word_loadLE, guard_loadWord_of_gt _ outside]

/-- STI whose pointer cell fits and names a word past the end of memory (R174). -/
theorem exec_sti_target_outside (cell : pointerAddr s imm + 4 ≤ s.cfg.memSize)
    (outside : s.cfg.memSize < s.mem.loadLE (pointerAddr s imm) 4 + 4) :
    exec (.sti r1 imm) s = .next (s.raise (.outOfBounds (s.mem.loadLE (pointerAddr s imm) 4))) :=
  calc exec (.sti r1 imm) s
    _ = s.guard (s.loadWord (pointerAddr s imm)) _ := guard_checkReg_of_some s _ named
    _ = s.guard (s.storeWord (BitVec.ofNat 32 (s.mem.loadLE (pointerAddr s imm) 4)).toNat (s.reg r)) .next :=
      guard_loadWord_of_le _ cell
    _ = .next (s.raise (.outOfBounds (s.mem.loadLE (pointerAddr s imm) 4))) := by
      rw [Memory.toNat_word_loadLE, guard_storeWord_of_gt _ _ outside]

end DataAccess

/-! The statements. -/

/-- Settles O23: each rejected access is a raised OutOfBounds, by the lemma of its instruction. -/
theorem dataAccessOutOfBoundsHalts : Obligations.DataAccessOutOfBoundsHalts := by
  intro s r1 imm r named
  refine ⟨fun outside => ?store, fun outside => ⟨?ldiCell, ?stiCell⟩,
    fun cell outside => ⟨?ldiTarget, ?stiTarget⟩⟩
  case store => exact exists_faultsWith_of_raise rfl (exec_store_outside named outside)
  case ldiCell => exact exists_faultsWith_of_raise rfl (exec_ldi_cell_outside named outside)
  case stiCell => exact exists_faultsWith_of_raise rfl (exec_sti_cell_outside named outside)
  case ldiTarget => exact exists_faultsWith_of_raise rfl (exec_ldi_target_outside named cell outside)
  case stiTarget => exact exists_faultsWith_of_raise rfl (exec_sti_target_outside named cell outside)

/-- Settles O8: the fetch's one condition decides between the word and the raised fault. -/
theorem fetchOutOfBoundsHalts : Obligations.FetchOutOfBoundsHalts := fun _ running =>
  ⟨fun outside =>
      exists_faultsWith_of_raise rfl (step_of_fetch_error running (State.fetch_of_gt outside)),
    fun fits => ⟨_, State.fetch_of_le fits⟩⟩

/-- Settles O9: dispatch's fault is raised on the state with `PC` advanced. -/
theorem unknownOpcodeHalts : Obligations.UnknownOpcodeHalts := by
  intro s iw running fetched unassigned
  have raised : step s = .next (s.advancePc.raise (.unknownOpcode (fieldsOf iw).opc)) := by
    rw [step_of_fetch running fetched, State.dispatch_of_unassigned unassigned, State.guard_error]
  exact ⟨_, raised, State.raise_pc _ _, State.faultsWith_raise _ rfl⟩

/-- Settles O15: with a zero immediate DIV is the raised DivideByZero. -/
theorem divideByZeroHalts : Obligations.DivideByZeroHalts := fun s _ _ _ _ h1 h2 =>
  exists_faultsWith_of_raise rfl (exec_div_zero s h1 h2)

end Sys2Proof.Machine
end

section
/-! The wait for input (60_exceptions.md R192): an instruction has a successor unless it waits, so a
running machine's step has none exactly when the instruction it dispatches waits. -/

namespace Sys2Proof.Machine

/-! Which instructions wait, and until when. -/

theorem waits_input_iff {f : RegField} {s : State} :
    Waits (.input f) s ↔ (regOf f).isSome ∧ s.intIn = [] := by
  simp [Waits]

theorem waits_trap_iff {vec : TrapVec} {s : State} :
    Waits (.trap vec) s ↔ vec = 0x20 ∧ s.charIn = [] := by
  simp [Waits]

/-- The advance of `PC` answers no port. -/
theorem waits_advancePc_iff {i : Instr} {s : State} : Waits i s.advancePc ↔ Waits i s := Iff.rfl

/-- An integer answer ends INPUT's wait (R43). -/
theorem not_waits_input_supplyInt (f : RegField) (s : State) (a : IntAnswer) :
    ¬ Waits (.input f) (s.supplyInt a) := by
  simp [waits_input_iff, State.supplyInt]

/-- A character ends the wait of trap 0x20 (R44). -/
theorem not_waits_trap_supplyChar (vec : TrapVec) (s : State) (c : Word) :
    ¬ Waits (.trap vec) (s.supplyChar c) := by
  simp [waits_trap_iff, State.supplyChar]

/-- A character is no answer to INPUT. -/
theorem waits_input_supplyChar_iff {f : RegField} {s : State} {c : Word} :
    Waits (.input f) (s.supplyChar c) ↔ Waits (.input f) s := by
  simp [waits_input_iff, State.supplyChar]

/-- An integer is no answer to trap 0x20. -/
theorem waits_trap_supplyInt_iff {vec : TrapVec} {s : State} {a : IntAnswer} :
    Waits (.trap vec) (s.supplyInt a) ↔ Waits (.trap vec) s := by
  simp [waits_trap_iff, State.supplyInt]

/-! An instruction that waits. -/

/-- A waiting instruction answers the wait, and no state (R43, R44). -/
theorem exec_of_waits {i : Instr} {s : State} (h : Waits i s) : exec i s = .fault .awaitingInput := by
  rcases h with ⟨f, rfl, named, empty⟩ | ⟨rfl, empty⟩
  · obtain ⟨r, hr⟩ := Option.isSome_iff_exists.mp named
    have noAnswer : s.inInt = none := by simp [State.inInt, empty]
    simp [exec, execInput, guard_checkReg_of_some s _ hr, noAnswer, holdForInput]
  · have noAnswer : s.inChar = none := by simp [State.inChar, empty]
    simp [exec, execTrap, trapGetcVec, trapGetc, noAnswer, holdForInput]

/-! An instruction that does not wait. -/

/-- A guarded continuation has a successor if what follows the check has one: the fault is a state too. -/
theorem State.guard_completes {α : Type} (s : State) {c : Except Diag α} {k : α → Result}
    (hk : ∀ a, c = .ok a → ∃ t, k a = .next t) : ∃ t, s.guard c k = .next t := by
  cases c with
  | ok a => exact hk a rfl
  | error d => exact ⟨_, s.guard_error d k⟩

theorem withTwoRegs_completes (r1 r2 : RegField) (s : State) {k : Reg → Reg → Result}
    (hk : ∀ d a, ∃ t, k d a = .next t) : ∃ t, withTwoRegs r1 r2 s k = .next t :=
  s.guard_completes fun d _ => s.guard_completes fun a _ => hk d a

theorem execInput_completes {f : RegField} {s : State} (h : ¬ Waits (.input f) s) :
    ∃ t, execInput f s = .next t := by
  refine s.guard_completes fun r hr => ?_
  have named : (regOf f).isSome := by
    rcases checkReg_cases f with ⟨_, h, -⟩ | ⟨-, bad⟩
    · simp [h]
    · simp [bad] at hr
  rcases hi : s.intIn with _ | ⟨_ | _, rest⟩
  · exact absurd (waits_input_iff.mpr ⟨named, hi⟩) h
  · simp [State.inInt, hi]
  · simp [State.inInt, hi]

theorem execTrap_completes {vec : TrapVec} {s : State} (h : ¬ Waits (.trap vec) s) :
    ∃ t, execTrap vec s = .next t := by
  unfold execTrap
  split
  · rename_i getc
    rcases hc : s.charIn with _ | ⟨c, rest⟩
    · exact absurd (waits_trap_iff.mpr ⟨getc, hc⟩) h
    · simp [trapGetc, State.inChar, hc]
  · split
    · exact ⟨_, rfl⟩
    · split <;> exact ⟨_, rfl⟩

/-- An instruction that does not wait has a successor, a fault's state included (R91, R171). -/
theorem exec_completes {i : Instr} {s : State} (h : ¬ Waits i s) : ∃ t, exec i s = .next t := by
  cases i with
  | add r1 r2 | sub r1 r2 | mul r1 r2 | and r1 r2 | or r1 r2 | xor r1 r2 | not r1 r2 | shl r1 r2 | shr r1 r2
  | cmpEq r1 r2 | cmpNeq r1 r2 | cmpGt r1 r2 | cmpLt r1 r2 =>
    exact withTwoRegs_completes r1 r2 s fun _ _ => ⟨_, rfl⟩
  | div r1 r2 =>
    exact withTwoRegs_completes r1 r2 s fun _ _ => s.guard_completes fun _ _ => ⟨_, rfl⟩
  | load | lea | output => exact s.guard_completes fun _ _ => ⟨_, rfl⟩
  | store => exact s.guard_completes fun _ _ => s.guard_completes fun _ _ => ⟨_, rfl⟩
  | ldi | sti =>
    exact s.guard_completes fun _ _ => s.guard_completes fun _ _ => s.guard_completes fun _ _ => ⟨_, rfl⟩
  | jmpAbs | jmpRel | halt => exact ⟨_, rfl⟩
  | input => exact execInput_completes h
  | trap => exact execTrap_completes h

/-! The step. -/

/-- A running machine's step runs the instruction it dispatches (R90). -/
theorem step_of_runs {s : State} {i : Instr} (running : s.running = true) (h : Runs s i) :
    step s = exec i s.advancePc := by
  obtain ⟨iw, fetched, decoded⟩ := h
  have dispatched : s.dispatch iw = .ok i := by simp [State.dispatch, decoded]
  rw [step_of_fetch running fetched, dispatched, State.guard_ok]

/-- A running machine that dispatches no instruction takes a fault, and so has a successor (R173, R176). -/
theorem step_completes_of_runs_none {s : State} (running : s.running = true) (h : ∀ i, ¬ Runs s i) :
    ∃ t, step s = .next t := by
  rcases step_cases s with ⟨stopped, -⟩ | ⟨-, -, faults⟩ | ⟨-, -, iw, fetched, ⟨-, faults⟩ | ⟨i, decoded, -⟩⟩
  · simp [running] at stopped
  · exact ⟨_, faults⟩
  · exact ⟨_, faults⟩
  · exact absurd ⟨iw, fetched, decoded⟩ (h i)

theorem step_of_waits {s : State} {i : Instr} (running : s.running = true) (runs : Runs s i)
    (waits : Waits i s) : step s = .fault .awaitingInput := by
  rw [step_of_runs running runs, exec_of_waits (waits_advancePc_iff.mpr waits)]

/-- The instruction dispatched decides whether the step has a successor. -/
theorem step_completes_iff {s : State} {i : Instr} (running : s.running = true) (runs : Runs s i) :
    (∃ t, step s = .next t) ↔ ¬ Waits i s := by
  refine ⟨fun ⟨t, next⟩ waits => ?_, fun notWaits => ?_⟩
  · simp [step_of_waits running runs waits] at next
  · rw [step_of_runs running runs]
    exact exec_completes (mt waits_advancePc_iff.mp notWaits)

/-- An executor holds a state whose step has no successor. -/
theorem runFor_of_fault {s : State} {r : Fault} (h : step s = .fault r) (k : Nat) : runFor k s = s := by
  cases k with
  | zero => rfl
  | succ k => simp [runFor, h]

/-- The step has no successor exactly when the instruction dispatched waits (R192). -/
theorem step_stuck_iff_waits {s : State} (running : s.running = true) :
    (¬ ∃ t, step s = .next t) ↔ ∃ i, Runs s i ∧ Waits i s := by
  constructor
  · intro stuck
    by_contra! noWait
    refine stuck ?_
    by_cases runs : ∃ i, Runs s i
    · obtain ⟨i, runs⟩ := runs
      exact (step_completes_iff running runs).mpr (noWait i runs)
    · exact step_completes_of_runs_none running (not_exists.mp runs)
  · rintro ⟨i, runs, waits⟩ completes
    exact (step_completes_iff running runs).mp completes waits

/-! The host's answers. -/

/-- An answer is no part of what the step fetches, so it changes nothing about the instruction dispatched. -/
theorem runs_supplyInt_iff {s : State} {i : Instr} {a : IntAnswer} : Runs (s.supplyInt a) i ↔ Runs s i :=
  Iff.rfl

theorem runs_supplyChar_iff {s : State} {i : Instr} {c : Word} : Runs (s.supplyChar c) i ↔ Runs s i :=
  Iff.rfl

/-- Settles O28: the step has a successor unless its instruction waits, and the four cases of an answer
are what each answer does to each wait. -/
theorem waitingStepHasNoSuccessor : Obligations.WaitingStepHasNoSuccessor := by
  refine fun s running => ⟨step_stuck_iff_waits running, fun i runs waits => ?_⟩
  have withInt (a) := step_completes_iff (s := s.supplyInt a) running (runs_supplyInt_iff.mpr runs)
  have withChar (c) := step_completes_iff (s := s.supplyChar c) running (runs_supplyChar_iff.mpr runs)
  refine ⟨?held, ?noEnding, ?input, ?getc⟩
  case held => exact runFor_of_fault (step_of_waits running runs waits)
  case noEnding => simp [State.ending, running]
  case input =>
    rintro f rfl
    refine ⟨fun a => ?_, fun c completes => ?_⟩
    · exact (withInt a).mpr (not_waits_input_supplyInt f s a)
    · exact (withChar c).mp completes (waits_input_supplyChar_iff.mpr waits)
  case getc =>
    rintro rfl
    refine ⟨fun c => ?_, fun a completes => ?_⟩
    · exact (withChar c).mpr (not_waits_trap_supplyChar 0x20 s c)
    · exact (withInt a).mp completes (waits_trap_supplyInt_iff.mpr waits)

end Sys2Proof.Machine
end

section
/-! Decoding and encoding (30_encoding.md R75 to R88): an opcode value selects its mnemonic, the mnemonic
selects the fields it reads, and a canonical word carries exactly those fields. -/

namespace Sys2Proof

open Machine (AgreeOnUsed immBits)

/-! Looking an opcode up (R82, R83). -/

/-- R7's constraint on the map, as a function's. -/
theorem OpcodeMap.opcodeOf_injective {m : OpcodeMap} (h : m.wf) : Function.Injective m.opcodeOf :=
  fun k k' same => List.inj_on_of_nodup_map h.1 k.mem_all k'.mem_all same

/-- Under a map R7 allows, a mnemonic's opcode selects that mnemonic. -/
theorem OpcodeMap.lookup_opcodeOf {m : OpcodeMap} (h : m.wf) (k : Mnemonic) :
    m.lookup (m.opcodeOf k) = some k := by
  cases found : m.lookup (m.opcodeOf k) with
  | none => exact absurd rfl (OpcodeMap.lookup_none_iff.mp found k)
  | some k' => rw [OpcodeMap.opcodeOf_injective h (OpcodeMap.lookup_some found)]

/-! Decoding, by what the lookup gives (R83). -/

theorem decode_of_lookup_some {m : OpcodeMap} {w : Word} {k : Mnemonic}
    (h : m.lookup (fieldsOf w).opc = some k) : decode m w = .ok (assemble k (fieldsOf w)) := by
  simp [decode, h]

theorem decode_of_lookup_none {m : OpcodeMap} {w : Word} (h : m.lookup (fieldsOf w).opc = none) :
    decode m w = .error (.unknownOpcode (fieldsOf w).opc) := by
  simp [decode, h]

/-- A decoded instruction is the one its mnemonic assembles from the word's fields. -/
theorem lookup_of_decode_ok {m : OpcodeMap} {w : Word} {i : Instr} (h : decode m w = .ok i) :
    ∃ k, m.lookup (fieldsOf w).opc = some k ∧ assemble k (fieldsOf w) = i := by
  cases found : m.lookup (fieldsOf w).opc with
  | none => simp [decode_of_lookup_none found] at h
  | some k => exact ⟨k, rfl, by simpa [decode_of_lookup_some found] using h⟩

/-- Assembling gives an instruction of the mnemonic it was asked for (R78). -/
@[simp] theorem mnemonic_assemble (k : Mnemonic) (f : Fields) : (assemble k f).mnemonic = k := by
  cases k <;> rfl

/-! Canonical words (R88). -/

/-- The family CanonicalWord, over all instructions. -/
theorem canonicalWord : ∀ i : Instr, Laws.CanonicalWord.Statement i
  | .add r1 r2 imm => Laws.CanonicalWord.add r1 r2 imm
  | .sub r1 r2 imm => Laws.CanonicalWord.sub r1 r2 imm
  | .mul r1 r2 imm => Laws.CanonicalWord.mul r1 r2 imm
  | .div r1 r2 imm => Laws.CanonicalWord.div r1 r2 imm
  | .and r1 r2 imm => Laws.CanonicalWord.and r1 r2 imm
  | .or r1 r2 imm => Laws.CanonicalWord.or r1 r2 imm
  | .xor r1 r2 imm => Laws.CanonicalWord.xor r1 r2 imm
  | .not r1 r2 => Laws.CanonicalWord.not r1 r2
  | .shl r1 r2 imm => Laws.CanonicalWord.shl r1 r2 imm
  | .shr r1 r2 imm => Laws.CanonicalWord.shr r1 r2 imm
  | .cmpEq r1 r2 => Laws.CanonicalWord.cmpEq r1 r2
  | .cmpNeq r1 r2 => Laws.CanonicalWord.cmpNeq r1 r2
  | .cmpGt r1 r2 => Laws.CanonicalWord.cmpGt r1 r2
  | .cmpLt r1 r2 => Laws.CanonicalWord.cmpLt r1 r2
  | .load r1 imm => Laws.CanonicalWord.load r1 imm
  | .store r1 imm => Laws.CanonicalWord.store r1 imm
  | .ldi r1 imm => Laws.CanonicalWord.ldi r1 imm
  | .sti r1 imm => Laws.CanonicalWord.sti r1 imm
  | .lea r1 imm => Laws.CanonicalWord.lea r1 imm
  | .jmpAbs imm => Laws.CanonicalWord.jmpAbs imm
  | .jmpRel imm => Laws.CanonicalWord.jmpRel imm
  | .input r1 => Laws.CanonicalWord.input r1
  | .output r1 => Laws.CanonicalWord.output r1
  | .trap vec => Laws.CanonicalWord.trap vec
  | .halt => Laws.CanonicalWord.halt

/-- Settles O1: the canonical word has the instruction's fields, its opcode selects the instruction's
mnemonic, and that mnemonic assembles those fields to the instruction. -/
theorem decodeOfEncodeIsTheInstruction : Obligations.DecodeOfEncodeIsTheInstruction := by
  intro m allowed i
  obtain ⟨fields, opcode, assembled⟩ := canonicalWord i m
  have found : m.lookup (fieldsOf (encode m i)).opc = some i.mnemonic := by
    rw [fields, opcode, OpcodeMap.lookup_opcodeOf allowed]
  rw [decode_of_lookup_some found, fields, assembled]

/-! The used fields (R78, R85). -/

/-- A vector is the low 8 bits of the immediate (R81). -/
theorem toNat_trapVecOf (imm : Imm) : (trapVecOf imm).toNat = imm.toNat % 2 ^ 8 := by
  simp [trapVecOf]

/-- The instruction assembled from some fields has a canonical word that agrees with them wherever its
mnemonic uses them. -/
theorem agreeOnUsed_fields_assemble {m : OpcodeMap} {k : Mnemonic} {f : Fields}
    (opcode : m.opcodeOf k = f.opc) : AgreeOnUsed k ((assemble k f).fields m) f := by
  cases k with
  | add | sub | mul | div | and | or | xor | shl | shr => exact ⟨opcode, fun _ => rfl, fun _ => rfl, rfl⟩
  | not | cmpEq | cmpNeq | cmpGt | cmpLt =>
    exact ⟨opcode, fun _ => rfl, fun _ => rfl, by simp [immBits, Nat.mod_one]⟩
  | load | store | ldi | sti | lea => exact ⟨opcode, fun _ => rfl, nofun, rfl⟩
  | jmpAbs | jmpRel => exact ⟨opcode, nofun, nofun, rfl⟩
  | input | output => exact ⟨opcode, fun _ => rfl, nofun, by simp [immBits, Nat.mod_one]⟩
  | trap => exact ⟨opcode, nofun, nofun, by simp [assemble, Instr.fields, immBits, toNat_trapVecOf]⟩
  | halt => exact ⟨opcode, nofun, nofun, by simp [immBits, Nat.mod_one]⟩

/-- What a mnemonic assembles depends on the fields it uses only. -/
theorem assemble_congr {k : Mnemonic} {f g : Fields} (h : AgreeOnUsed k f g) :
    assemble k f = assemble k g := by
  obtain ⟨-, r1, r2, imm⟩ := h
  have whole (h : immBits k = 16) : f.imm = g.imm := by
    rw [h, Nat.mod_eq_of_lt f.imm.isLt, Nat.mod_eq_of_lt g.imm.isLt] at imm
    exact BitVec.eq_of_toNat_eq imm
  cases k with
  | add | sub | mul | div | and | or | xor | shl | shr => simp [assemble, r1 rfl, r2 rfl, whole rfl]
  | not | cmpEq | cmpNeq | cmpGt | cmpLt => simp [assemble, r1 rfl, r2 rfl]
  | load | store | ldi | sti | lea => simp [assemble, r1 rfl, whole rfl]
  | jmpAbs | jmpRel => simp [assemble, whole rfl]
  | input | output => simp [assemble, r1 rfl]
  | trap =>
    have low : trapVecOf f.imm = trapVecOf g.imm := by
      apply BitVec.eq_of_toNat_eq
      rw [toNat_trapVecOf, toNat_trapVecOf]
      exact imm
    simp [assemble, low]
  | halt => rfl

/-- Settles O2: the word decodes to what its mnemonic assembles from its fields. -/
theorem encodeOfDecodeKeepsUsedFields : Obligations.EncodeOfDecodeKeepsUsedFields := by
  intro m w i decoded
  obtain ⟨k, found, rfl⟩ := lookup_of_decode_ok decoded
  rw [mnemonic_assemble, encode, fieldsOf_packFields]
  exact agreeOnUsed_fields_assemble (OpcodeMap.lookup_some found)

/-- Settles O3: both words select the same mnemonic, and it assembles the same instruction. -/
theorem unusedFieldsAreIgnored : Obligations.UnusedFieldsAreIgnored := by
  intro m w w' k found agree
  have found' : m.lookup (fieldsOf w').opc = some k := agree.1 ▸ found
  rw [decode_of_lookup_some found, decode_of_lookup_some found', assemble_congr agree]

/-- Settles O5: the lookup decides, and it reads the opcode alone. -/
theorem opcodeAloneSelectsTheInstruction : Obligations.OpcodeAloneSelectsTheInstruction := by
  intro m allowed w
  refine ⟨fun k assigned => ?_, fun unassigned => ?_⟩
  · have found : m.lookup (fieldsOf w).opc = some k := by rw [assigned, OpcodeMap.lookup_opcodeOf allowed]
    exact ⟨_, decode_of_lookup_some found, mnemonic_assemble k _⟩
  · exact decode_of_lookup_none (OpcodeMap.lookup_none_iff.mpr fun k => (unassigned k).symm)

/-- Settles O6: six closed words, each decoded by evaluation. -/
theorem writtenOutWordsDecode : Obligations.WrittenOutWordsDecode := by
  refine ⟨?_, ?_, ?_, ?_, ?_, ?_⟩ <;> decide

end Sys2Proof
end

section
/-! The frames of the register writes (10_state.md R24, R30, R32): what each write leaves in its cells, and
that nothing else changes. -/

namespace Sys2Proof.Machine

/-! Frames, weakened and composed. -/

theorem SameRegsBut.mono {s t : State} {ds es : List Reg} (h : SameRegsBut s t ds) (sub : ds ⊆ es) :
    SameRegsBut s t es :=
  fun r notIn => h r fun isIn => notIn (sub isIn)

theorem SameRegsBut.trans {s t u : State} {ds es : List Reg} (h : SameRegsBut s t ds)
    (h' : SameRegsBut t u es) : SameRegsBut s u (ds ++ es) := by
  intro r notIn
  simp only [List.mem_append, not_or] at notIn
  rw [h' r notIn.2, h r notIn.1]

/-- What two writes one after the other leave alone. -/
theorem WritesOnly.trans {s t u : State} {ds es : List Reg} (h : WritesOnly s t ds)
    (h' : WritesOnly t u es) : WritesOnly s u (ds ++ es) := by
  obtain ⟨regs, mem, running, cfg, ints, chars, trace⟩ := h
  obtain ⟨regs', mem', running', cfg', ints', chars', trace'⟩ := h'
  exact ⟨regs.trans regs', fun a => (mem' a).trans (mem a), running'.trans running, cfg'.trans cfg,
    ints'.trans ints, chars'.trans chars, trace'.trans trace⟩

/-! Each write's frame. -/

/-- A register write (R24). -/
theorem State.writesOnly_setReg (s : State) (r : Reg) (v : Word) : WritesOnly s (s.setReg r v) [r] :=
  ⟨fun _ other => s.reg_setReg_ne v (List.ne_of_not_mem_cons other), fun _ => by rw [s.setReg_mem],
    s.setReg_running r v, s.setReg_cfg r v, s.setReg_intIn r v, s.setReg_charIn r v, s.setReg_trace r v⟩

/-- The flag update (R30). -/
theorem State.writesOnly_setFlags (s : State) (r : Reg) : WritesOnly s (s.setFlags r) [.cond] :=
  s.writesOnly_setReg .cond _

/-- A compare's write (R32). -/
theorem State.writesOnly_setComp (s : State) (b : Bool) : WritesOnly s (s.setComp b) [.comp] :=
  s.writesOnly_setReg .comp _

/-- A destination and its flag (R30). -/
theorem State.writesOnly_writeDest (s : State) (d : Reg) (v : Word) :
    WritesOnly s (s.writeDest d v) [d, .cond] :=
  (s.writesOnly_setReg d v).trans (State.writesOnly_setFlags _ d)

/-- DIV's three writes (R35, R103). -/
theorem State.writesOnly_divide (s : State) (d : Reg) (q m : Word) :
    WritesOnly s (((s.setReg d q).setReg .rem m).setFlags d) [d, .rem, .cond] :=
  ((s.writesOnly_setReg d q).trans (State.writesOnly_setReg _ .rem m)).trans (State.writesOnly_setFlags _ d)

/-- The advance of `PC` (R26). -/
theorem State.writesOnly_advancePc (s : State) : WritesOnly s s.advancePc [.pc] :=
  s.writesOnly_setReg .pc (s.pc + 4)

/-! The flag. -/

@[simp] theorem toNat_zext32 {w : Nat} (h : w ≤ 32) (v : BitVec w) : (zext32 v).toNat = v.toNat :=
  BitVec.toNat_setWidth_of_le h

/-- A COND that holds a value's pattern shows the value's sign (R30). -/
theorem condShows_of_cond_eq {t : State} {v : Word} (h : t.cond = zext32 (condPattern t.cfg v)) :
    CondShows t v.toInt := by
  have pattern : t.cond.toNat = (condPattern t.cfg v).toNat := by rw [h, toNat_zext32 (by decide)]
  refine ⟨fun zero => ?_, fun positive => ?_, fun negative => ?_⟩ <;> rw [pattern, condPattern, signed]
  · rw [if_pos zero]
  · rw [if_neg positive.ne', if_pos positive]
  · rw [if_neg negative.ne, if_neg negative.not_gt]

/-- The flag update shows the sign of the register it reads, as it was. -/
theorem State.condShows_setFlags (s : State) (r : Reg) : CondShows (s.setFlags r) (s.reg r).toInt :=
  condShows_of_cond_eq (by rw [s.setFlags_cfg]; exact s.reg_setFlags_cond r)

/-- Writing a destination is all of R30's rule. -/
theorem State.destGets_writeDest (s : State) (d : Reg) (v : Word) : DestGets s (s.writeDest d v) d v :=
  ⟨s.reg_writeDest_dest v, condShows_of_cond_eq (by rw [s.writeDest_cfg]; exact s.reg_writeDest_cond d v),
    s.writesOnly_writeDest d v⟩

/-- The flag update leaves one of the three patterns, whatever COND held (R29, R31). -/
theorem State.condLegal_setFlags (s : State) (r : Reg) : (s.setFlags r).condLegal := by
  have pattern : (s.setFlags r).cond = zext32 (condPattern s.cfg (s.reg r)) := s.reg_setFlags_cond r
  rw [State.condLegal, pattern, s.setFlags_cfg, condPattern]
  split
  · exact .inr (.inl rfl)
  · split
    · exact .inr (.inr (.inl rfl))
    · exact .inr (.inr (.inr rfl))

end Sys2Proof.Machine
end

section
/-! What an instruction's effect leaves of each part of the state: its registers, memory, parameters,
ports, output and running flag, each said once over the cases of `Effect`. -/

namespace Sys2Proof.Machine

/-! Registers (R30, R32, R34, R143, R154). -/

/-- The register cells alone make a register's value. -/
theorem State.reg_withIntIn (s : State) (rest : List IntAnswer) (r : Reg) :
    ({ s with intIn := rest } : State).reg r = s.reg r := by
  cases r <;> rfl

theorem State.reg_withCharIn (s : State) (rest : List Word) (r : Reg) :
    ({ s with charIn := rest } : State).reg r = s.reg r := by
  cases r <;> rfl

/-- An instruction with a destination may write it, and COND. -/
theorem dest_cond_subset_writtenRegs {i : Instr} {f : RegField} {d : Reg} (hf : destField i = some f)
    (hd : regOf f = some d) : [d, .cond] ⊆ writtenRegs i := by
  simp [writtenRegs, hf, hd]

/-- A compare may write COMP (R32). -/
theorem comp_subset_writtenRegs {i : Instr} {r1 r2 : RegField}
    (hi : i = .cmpEq r1 r2 ∨ i = .cmpNeq r1 r2 ∨ i = .cmpGt r1 r2 ∨ i = .cmpLt r1 r2) :
    [.comp] ⊆ writtenRegs i := by
  rcases hi with rfl | rfl | rfl | rfl <;> simp [writtenRegs, destField]

/-- A jump may write PC (R143). -/
theorem pc_subset_writtenRegs {i : Instr} {imm : Imm} (hi : i = .jmpAbs imm ∨ i = .jmpRel imm) :
    [.pc] ⊆ writtenRegs i := by
  rcases hi with rfl | rfl <;> simp [writtenRegs, destField]

/-- An effect changes no register but those its instruction may write. -/
theorem Effect.sameRegsBut {i : Instr} {s t : State} (e : Effect i s t) :
    SameRegsBut s t (writtenRegs i) := by
  cases e with
  | raised d => exact fun r _ => s.raise_reg d r
  | malformed f rest => exact fun r _ => (State.raise_reg _ _ r).trans (s.reg_withIntIn rest r)
  | reported vec => exact fun r _ => s.raise_reg _ r
  | dest f d v hf hd => exact (s.writesOnly_writeDest d v).1.mono (dest_cond_subset_writtenRegs hf hd)
  | divided r1 r2 imm d q m hi hd =>
    exact (s.writesOnly_divide d q m).1.mono (by subst hi; simp [writtenRegs, destField, hd])
  | compared b r1 r2 hi => exact (s.writesOnly_setComp b).1.mono (comp_subset_writtenRegs hi)
  | stored => exact fun r _ => s.reg_withMem _ r
  | jumped imm v hi => exact (s.writesOnly_setReg .pc v).1.mono (pc_subset_writtenRegs hi)
  | stopped => exact fun r _ => s.stop_reg r
  | answered f d v rest hi hd =>
    intro r other
    rw [(State.writesOnly_writeDest _ d v).1.mono (dest_cond_subset_writtenRegs (by rw [hi]; rfl) hd) r other,
      s.reg_withIntIn rest r]
  | gotChar c rest hi =>
    intro r other
    rw [(State.writesOnly_setReg _ (.gpr 0) _).1.mono (by subst hi; simp [writtenRegs]) r other,
      s.reg_withCharIn rest r]
  | printed | putChar => exact fun r _ => s.emit_reg _ r

/-- Settles O35: what the instruction comes to is an `Effect`, whose registers are above. -/
theorem onlyNamedRegistersChange : Obligations.OnlyNamedRegistersChange := fun _ _ _ executed =>
  (exec_effect executed).sameRegsBut

/-! Memory (R54, R59). -/

/-- An effect leaves memory alone, or stores four bytes in bounds at the address its instruction computes. -/
theorem Effect.mem_cases {i : Instr} {s t : State} (e : Effect i s t) :
    t.mem = s.mem ∨
    ∃ a v, storeAddr i s = some a ∧ a + 4 ≤ s.cfg.memSize ∧ t.mem = s.mem.storeLE a 4 v := by
  cases e with
  | stored r1 imm r a hi hr ha inside => exact .inr ⟨a, _, ha, inside, rfl⟩
  | raised | malformed | reported | dest | divided | compared | jumped | stopped | answered | gotChar
  | printed | putChar => exact .inl (by simp)

/-- Settles O36: a store leaves alone every byte outside its four. -/
theorem onlyStoresChangeMemory : Obligations.OnlyStoresChangeMemory := by
  intro i s t executed a outside
  rcases (exec_effect executed).mem_cases with same | ⟨e, v, storesAt, -, stored⟩
  · rw [same]
  · rw [stored, s.mem.readByte_storeLE_outside e 4 v (outside e storesAt)]

/-! Parameters and input ports (R43, R44, R46). -/

theorem Effect.cfg_eq {i : Instr} {s t : State} (e : Effect i s t) : t.cfg = s.cfg := by
  cases e with
  | raised | malformed | reported | dest | divided | compared | stored | jumped | stopped | answered
  | gotChar | printed | putChar => simp

/-- The integer answers: as before, or INPUT took the next one. -/
theorem Effect.intIn_cases {i : Instr} {s t : State} (e : Effect i s t) :
    t.intIn = s.intIn ∨ (∃ f, i = .input f) ∧ ∃ a, s.intIn = a :: t.intIn := by
  cases e with
  | malformed f rest hi h => exact .inr ⟨⟨f, hi⟩, _, by simpa using h⟩
  | answered f d v rest hi hd h => exact .inr ⟨⟨f, hi⟩, _, by simpa using h⟩
  | raised | reported | dest | divided | compared | stored | jumped | stopped | gotChar | printed
  | putChar => exact .inl (by simp)

/-- The characters: as before, or trap 0x20 took the next one. -/
theorem Effect.charIn_cases {i : Instr} {s t : State} (e : Effect i s t) :
    t.charIn = s.charIn ∨ i = .trap 0x20 ∧ ∃ c, s.charIn = c :: t.charIn := by
  cases e with
  | gotChar c rest hi h => exact .inr ⟨hi, c, by simpa using h⟩
  | raised | malformed | reported | dest | divided | compared | stored | jumped | stopped | answered
  | printed | putChar => exact .inl (by simp)

/-! Output and the running flag (R42, R171). -/

/-- Of the events, the fatal diagnostics alone clear `running`. -/
theorem State.raise_running_eq (s : State) (d : Diag) :
    (s.raise d).running = (s.running && (Event.diag d).fatalDiag.isNone) := by
  cases d <;> simp [Event.fatalDiag, Diag.fatal]

/-- An effect is silent, and then clears `running` only by HALT or the halt trap; or it emits one event,
and then clears it only if that is a fatal diagnostic. -/
theorem Effect.output_cases {i : Instr} {s t : State} (e : Effect i s t) :
    (t.trace = s.trace ∧ (t.running = s.running ∨ i = .halt ∨ i = .trap s.cfg.trapHaltVec)) ∨
    ∃ ev, t.trace = s.trace ++ [ev] ∧ t.running = (s.running && ev.fatalDiag.isNone) ∧
      ((∃ d, ev = .diag d) ∨ (∃ f, i = .output f) ∨ i = .trap 0x21) := by
  cases e with
  | raised d => exact .inr ⟨_, s.raise_trace d, s.raise_running_eq d, .inl ⟨d, rfl⟩⟩
  | malformed => exact .inr ⟨_, State.raise_trace _ _, State.raise_running_eq _ _, .inl ⟨_, rfl⟩⟩
  | reported => exact .inr ⟨_, s.raise_trace _, s.raise_running_eq _, .inl ⟨_, rfl⟩⟩
  | printed f v hi => exact .inr ⟨_, s.emit_trace _, by simp [Event.fatalDiag], .inr (.inl ⟨f, hi⟩)⟩
  | putChar b hi => exact .inr ⟨_, s.emit_trace _, by simp [Event.fatalDiag], .inr (.inr hi)⟩
  | stopped hi => exact .inl ⟨rfl, .inr hi⟩
  | dest | divided | compared | stored | jumped | answered | gotChar => exact .inl (by simp)

/-- An effect that emitted a fatal diagnostic is its `raise`, on the state as it stood but for a malformed
answer, which is taken (R181). -/
theorem Effect.eq_raise_of_fatal {i : Instr} {s t : State} {d : Diag} (e : Effect i s t)
    (fatal : d.fatal = true) (emitted : t.trace = s.trace ++ [.diag d]) :
    t = s.raise d ∨
    ∃ rest, d = .malformedInput ∧ s.intIn = .malformed :: rest ∧
      t = ({ s with intIn := rest } : State).raise .malformedInput := by
  cases e with
  | raised d' =>
    obtain rfl : d' = d := by simpa using emitted
    exact .inl rfl
  | malformed f rest hi h =>
    obtain rfl : .malformedInput = d := by simpa using emitted
    exact .inr ⟨rest, rfl, h, rfl⟩
  | reported vec =>
    obtain rfl : .unknownTrapVector vec = d := by simpa using emitted
    cases fatal
  | dest | divided | compared | stored | jumped | stopped | answered | gotChar | printed | putChar =>
    simp at emitted

/-! COND (R29, R31) and COMP (R33). -/

theorem State.condLegal_congr {s t : State} (cond : t.cond = s.cond) (cfg : t.cfg = s.cfg)
    (h : s.condLegal) : t.condLegal := by
  rwa [State.condLegal, cond, cfg]

/-- An effect leaves COND alone or updates it whole with a flag. -/
theorem Effect.condLegal {i : Instr} {s t : State} (e : Effect i s t) (h : s.condLegal) : t.condLegal := by
  have cfg : t.cfg = s.cfg := e.cfg_eq
  cases e with
  | dest | divided | answered => exact State.condLegal_setFlags _ _
  | raised | malformed | reported | compared | stored | jumped | stopped | gotChar | printed | putChar =>
    exact State.condLegal_congr (by simp) cfg h

/-- A compare writes COMP or faults (R32, R91). -/
theorem exec_compare_next {i : Instr} {r1 r2 : RegField} {s t : State}
    (hi : i = .cmpEq r1 r2 ∨ i = .cmpNeq r1 r2 ∨ i = .cmpGt r1 r2 ∨ i = .cmpLt r1 r2)
    (executed : exec i s = .next t) : (∃ b, t = s.setComp b) ∨ ∃ d, t = s.raise d := by
  obtain ⟨rel, hrel⟩ := exec_compare_eq s hi
  rcases withTwoRegs_next (hrel.symm.trans executed) with ⟨a, b, -, -, written⟩ | ⟨f, -, -, rfl⟩
  · exact .inl ⟨_, (Host.Outcome.next.inj written).symm⟩
  · exact .inr ⟨_, rfl⟩

/-- An instruction that does not name register 19 as its destination keeps COMP 0 or 1: a compare writes
one of the two, and no other instruction writes COMP. -/
theorem exec_comp_boolean {i : Instr} {s t : State} (executed : exec i s = .next t)
    (h19 : destField i ≠ some 19) (boolean : s.comp = 0 ∨ s.comp = 1) : t.comp = 0 ∨ t.comp = 1 := by
  by_cases compare : ∃ r1 r2, i = .cmpEq r1 r2 ∨ i = .cmpNeq r1 r2 ∨ i = .cmpGt r1 r2 ∨ i = .cmpLt r1 r2
  · obtain ⟨r1, r2, hi⟩ := compare
    rcases exec_compare_next hi executed with ⟨b, rfl⟩ | ⟨d, rfl⟩
    · exact s.setComp_comp_boolean b
    · rwa [s.raise_comp]
  · simp only [not_exists, not_or] at compare
    rwa [(exec_effect executed).comp_eq compare h19]

end Sys2Proof.Machine
end

section
/-! What a step leaves of the state (30_encoding.md R90; 60_exceptions.md R170, R171, R181): the effect of the
instruction dispatched, on the state with `PC` advanced, or one of the step's own two faults. -/

namespace Sys2Proof.Machine

/-! The cases of a step. -/

theorem State.dispatch_ok_iff {s : State} {iw : Word} {i : Instr} :
    s.dispatch iw = .ok i ↔ decode s.cfg.opc iw = .ok i := by
  rcases s.dispatch_cases iw with ⟨j, decoded, dispatched⟩ | ⟨unassigned, dispatched⟩
  · rw [decoded, dispatched]
    simp
  · simp [decode_of_lookup_none unassigned, dispatched]

/-- A step that answers a next state took the fetch fault or the dispatch fault, or ran an instruction. -/
theorem step_next {s t : State} (stepped : step s = .next t) :
    s.running = true ∧
    ((s.cfg.memSize < s.pc.toNat + 4 ∧ t = s.raise (.outOfBounds s.pc.toNat)) ∨
      s.pc.toNat + 4 ≤ s.cfg.memSize ∧
        ((∃ o, t = s.advancePc.raise (.unknownOpcode o)) ∨
          ∃ i, Runs s i ∧ exec i s.advancePc = .next t)) := by
  rcases step_cases s with ⟨-, eq⟩ | ⟨running, outside, eq⟩ | ⟨running, inside, iw, fetched, cases⟩
  · simp [eq] at stepped
  · exact ⟨running, .inl ⟨outside, (Host.Outcome.next.inj (eq.symm.trans stepped)).symm⟩⟩
  · refine ⟨running, .inr ⟨inside, ?_⟩⟩
    rcases cases with ⟨-, eq⟩ | ⟨i, decoded, eq⟩
    · exact .inl ⟨_, (Host.Outcome.next.inj (eq.symm.trans stepped)).symm⟩
    · exact .inr ⟨i, ⟨iw, fetched, decoded⟩, eq.symm.trans stepped⟩

section NextState

variable {s t : State} (stepped : step s = .next t)
include stepped

theorem step_cfg_eq : t.cfg = s.cfg := by
  obtain ⟨-, ⟨-, rfl⟩ | ⟨-, ⟨o, rfl⟩ | ⟨i, -, executed⟩⟩⟩ := step_next stepped
  · exact s.raise_cfg _
  · exact State.raise_cfg _ _
  · exact (exec_effect executed).cfg_eq

/-- A step leaves memory alone, or stores four bytes in bounds. -/
theorem step_mem_cases :
    t.mem = s.mem ∨ ∃ a v, a + 4 ≤ s.cfg.memSize ∧ t.mem = s.mem.storeLE a 4 v := by
  obtain ⟨-, ⟨-, rfl⟩ | ⟨-, ⟨o, rfl⟩ | ⟨i, -, executed⟩⟩⟩ := step_next stepped
  · exact .inl (s.raise_mem _)
  · exact .inl (State.raise_mem _ _)
  · exact (exec_effect executed).mem_cases.imp_right fun ⟨a, v, _, inside, stored⟩ =>
      ⟨a, v, inside, stored⟩

/-- A step is silent, and then clears `running` only by HALT or the halt trap; or it emits one event, and
then clears it exactly if that is a fatal diagnostic. -/
theorem step_output_cases :
    (t.trace = s.trace ∧ (t.running = true ∨ Runs s .halt ∨ Runs s (.trap s.cfg.trapHaltVec))) ∨
    ∃ ev, t.trace = s.trace ++ [ev] ∧ t.running = ev.fatalDiag.isNone ∧
      ((∃ d, ev = .diag d) ∨ (∃ f, Runs s (.output f)) ∨ Runs s (.trap 0x21)) := by
  obtain ⟨running, ⟨-, rfl⟩ | ⟨-, ⟨o, rfl⟩ | ⟨i, runs, executed⟩⟩⟩ := step_next stepped
  · exact .inr ⟨_, s.raise_trace _, by rw [s.raise_running_eq, running, Bool.true_and], .inl ⟨_, rfl⟩⟩
  · exact .inr ⟨_, State.raise_trace _ _, by
      rw [State.raise_running_eq, State.advancePc_running, running, Bool.true_and], .inl ⟨_, rfl⟩⟩
  · rcases (exec_effect executed).output_cases with ⟨silent, ends⟩ | ⟨ev, emitted, ends, source⟩
    · refine .inl ⟨silent, ?_⟩
      rcases ends with keeps | rfl | rfl
      · exact .inl (keeps.trans running)
      · exact .inr (.inl runs)
      · exact .inr (.inr runs)
    · refine .inr ⟨ev, emitted, by simpa [running] using ends, ?_⟩
      rcases source with diag | ⟨f, rfl⟩ | rfl
      · exact .inl diag
      · exact .inr (.inl ⟨f, runs⟩)
      · exact .inr (.inr runs)

end NextState

/-! How a run ends (R170, R181, R208). -/

/-- An event with a fatal diagnostic is that diagnostic. -/
theorem Event.fatalDiag_eq_some_iff {ev : Event} {d : Diag} :
    ev.fatalDiag = some d ↔ ev = .diag d ∧ d.fatal = true := by
  cases ev with
  | diag d' =>
    simp only [Event.fatalDiag, Option.ite_none_right_eq_some, Option.some.injEq, Event.diag.injEq]
    exact ⟨fun ⟨fatal, same⟩ => ⟨same, same ▸ fatal⟩, fun ⟨same, fatal⟩ => ⟨same ▸ fatal, same⟩⟩
  | outInt | outChar => simp [Event.fatalDiag]

/-- An event that clears `running` is a fatal diagnostic. -/
theorem Event.eq_diag_of_isNone_eq_false {ev : Event} (h : ev.fatalDiag.isNone = false) :
    ∃ d, ev = .diag d ∧ d.fatal = true := by
  obtain ⟨d, hd⟩ := Option.isSome_iff_exists.mp (Option.isNone_eq_false_iff.mp h)
  exact ⟨d, Event.fatalDiag_eq_some_iff.mp hd⟩

/-- Settles O42: of the two ways a step can go, a silent one ends the run by its instruction, and one that
emits ends it exactly by a fatal diagnostic. -/
theorem onlyHaltsAndFatalFaultsEndARun : Obligations.OnlyHaltsAndFatalFaultsEndARun := by
  intro s t stepped
  rcases step_output_cases stepped with ⟨silent, ends⟩ | ⟨ev, emitted, ends, -⟩
  · refine ⟨fun stopped => .inl ⟨?_, silent⟩, fun d _ emitted => ?_⟩
    · simpa [stopped] using ends
    · simp [silent] at emitted
  · refine ⟨fun stopped => .inr ?_, fun d fatal emittedDiag => ?_⟩
    · obtain ⟨d, rfl, fatal⟩ := Event.eq_diag_of_isNone_eq_false (ends.symm.trans stopped)
      exact ⟨d, fatal, emitted⟩
    · obtain rfl : ev = .diag d := by simpa [emitted] using emittedDiag
      simp [ends, Event.fatalDiag, fatal]

/-- `u` is the state before the step but for the `PC` advance, which a failed fetch does not make, and a
malformed answer, which is taken (D16, log entry 7). -/
def FaultRaisedIn (s u : State) (d : Diag) : Prop :=
  u.pc = (if s.cfg.memSize < s.pc.toNat + 4 then s.pc else s.pc + 4) ∧
  SameRegsBut s u [.pc] ∧ SameMemory s u ∧ u.cfg = s.cfg ∧ u.charIn = s.charIn ∧
  (u.intIn = s.intIn ∨ d = .malformedInput ∧ s.intIn = .malformed :: u.intIn)

/-- After a fetch that fits, faults are raised on the advanced `PC`. -/
theorem faultRaisedIn_advancePc {s : State} {d : Diag} (inside : s.pc.toNat + 4 ≤ s.cfg.memSize) :
    FaultRaisedIn s s.advancePc d :=
  ⟨by rw [if_neg (Nat.not_lt_of_le inside), s.advancePc_pc], s.writesOnly_advancePc.1, fun _ => rfl, rfl,
    rfl, .inl rfl⟩

/-- A step that emitted a fatal diagnostic is its `raise`: the fetch's, the dispatch's or the instruction's. -/
theorem step_eq_raise_of_fatal {s t : State} {d : Diag} (stepped : step s = .next t)
    (fatal : d.fatal = true) (emitted : t.trace = s.trace ++ [.diag d]) :
    ∃ u, t = u.raise d ∧ FaultRaisedIn s u d := by
  obtain ⟨-, ⟨outside, rfl⟩ | ⟨inside, ⟨o, rfl⟩ | ⟨i, -, executed⟩⟩⟩ := step_next stepped
  · obtain rfl : .outOfBounds s.pc.toNat = d := by simpa using emitted
    exact ⟨s, rfl, by rw [if_pos outside], fun _ _ => rfl, fun _ => rfl, rfl, rfl, .inl rfl⟩
  · obtain rfl : .unknownOpcode o = d := by simpa using emitted
    exact ⟨_, rfl, faultRaisedIn_advancePc inside⟩
  · rcases (exec_effect executed).eq_raise_of_fatal fatal emitted with rfl | ⟨rest, rfl, answer, rfl⟩
    · exact ⟨_, rfl, faultRaisedIn_advancePc inside⟩
    · obtain ⟨pc, regs, mem, cfg, chars, -⟩ := faultRaisedIn_advancePc (d := .malformedInput) inside
      exact ⟨_, rfl, pc, fun r other => (State.reg_withIntIn _ rest r).trans (regs r other), mem, cfg, chars,
        .inr ⟨rfl, answer⟩⟩

/-- Settles O43: the step is a `raise`, which adds the diagnostic and clears `running` and no more. -/
theorem fatalFaultsArePrecise : Obligations.FatalFaultsArePrecise := by
  intro s t d stepped fatal emitted
  obtain ⟨u, rfl, pc, regs, mem, cfg, chars, ints⟩ := step_eq_raise_of_fatal stepped fatal emitted
  obtain ⟨-, stopped, regs', mem', cfg', ints', chars'⟩ := u.faultsWith_raise fatal
  exact ⟨stopped, (u.raise_pc d).trans pc, regs.trans regs', fun a => (mem' a).trans (mem a),
    cfg'.trans cfg, chars'.trans chars, by rwa [ints']⟩

/-- An ended run shows the fatal diagnostic of its last event, if it has one (R208). -/
theorem State.ending_eq_faulted_iff {t : State} {d : Diag} (stopped : t.running = false) :
    t.ending = some (.faulted d) ↔ t.trace.getLast?.bind Event.fatalDiag = some d := by
  cases h : t.trace.getLast?.bind Event.fatalDiag <;> simp [State.ending, stopped, h]

theorem State.ending_eq_normal_iff {t : State} (stopped : t.running = false) :
    t.ending = some .normal ↔ t.trace.getLast?.bind Event.fatalDiag = none := by
  cases h : t.trace.getLast?.bind Event.fatalDiag <;> simp [State.ending, stopped, h]

/-- A running machine's output ends in no fatal diagnostic (R171). -/
theorem State.lastDiag_eq_none {s : State} (legal : s.traceLegal) (running : s.running = true) :
    s.trace.getLast?.bind Event.fatalDiag = none := by
  cases last : s.trace.getLast? with
  | none => rfl
  | some ev => exact legal.2 running ev (List.mem_of_getLast? last)

/-- Settles O44: a silent step leaves an output without a fatal diagnostic, and one that emits ends the run
by the diagnostic it emitted. -/
theorem endingIsTheLastStepsFault : Obligations.EndingIsTheLastStepsFault := by
  rintro s t ⟨-, -, -, -, legal⟩ stepped stopped
  simp only [State.ending_eq_faulted_iff stopped, State.ending_eq_normal_iff stopped]
  rcases step_output_cases stepped with ⟨silent, -⟩ | ⟨ev, emitted, ends, -⟩
  · simp [silent, State.lastDiag_eq_none legal (step_next stepped).1]
  · obtain ⟨d, rfl, fatal⟩ := Event.eq_diag_of_isNone_eq_false (ends.symm.trans stopped)
    simp [emitted, Event.fatalDiag, fatal, and_comm]

/-! The invariant. -/

/-- A step keeps the bounds of memory: a store is in bounds (R50, R54). -/
theorem step_memInside {s t : State} (stepped : step s = .next t) (inside : s.memInside) : t.memInside := by
  intro c hc
  rw [step_cfg_eq stepped]
  rcases step_mem_cases stepped with same | ⟨a, v, fits, stored⟩
  · exact inside c (same ▸ hc)
  · rcases Memory.mem_storeLE (stored ▸ hc) with old | ⟨-, below⟩
    · exact inside c old
    · omega

theorem step_mem_wf {s t : State} (stepped : step s = .next t) (wf : s.mem.wf) : t.mem.wf := by
  rcases step_mem_cases stepped with same | ⟨a, v, -, stored⟩
  · rwa [same]
  · rw [stored]
    exact Memory.wf_storeLE wf a 4 v

theorem step_condLegal {s t : State} (stepped : step s = .next t) (legal : s.condLegal) : t.condLegal := by
  obtain ⟨-, ⟨-, rfl⟩ | ⟨-, ⟨o, rfl⟩ | ⟨i, -, executed⟩⟩⟩ := step_next stepped
  · exact State.condLegal_congr (s.raise_cond _) (s.raise_cfg _) legal
  · exact State.condLegal_congr (State.raise_cond _ _) (State.raise_cfg _ _) legal
  · exact (exec_effect executed).condLegal legal

/-- The events before the step are those of a running machine, so none of them is a fatal diagnostic; the
event of the step itself is the last one (R171, R181). -/
theorem step_traceLegal {s t : State} (stepped : step s = .next t) (legal : s.traceLegal) :
    t.traceLegal := by
  have before : ∀ ev ∈ s.trace, ev.fatalDiag = none := legal.2 (step_next stepped).1
  rcases step_output_cases stepped with ⟨silent, -⟩ | ⟨ev, emitted, ends, -⟩
  · rw [State.traceLegal, silent]
    exact ⟨legal.1, fun _ => before⟩
  · rw [State.traceLegal, emitted, List.dropLast_concat]
    refine ⟨before, fun running e he => ?_⟩
    rcases List.mem_append.mp he with old | new
    · exact before e old
    · obtain rfl : e = ev := List.mem_singleton.mp new
      exact Option.isNone_iff_eq_none.mp (ends.symm.trans running)

/-- Settles O50, a conjunct at a time. -/
theorem stepKeepsTheInvariant : Obligations.StepKeepsTheInvariant := by
  rintro s t ⟨cfg, wf, inside, cond, trace⟩ stepped
  exact ⟨(step_cfg_eq stepped).symm ▸ cfg, step_mem_wf stepped wf, step_memInside stepped inside,
    step_condLegal stepped cond, step_traceLegal stepped trace⟩

/-- Settles O49: the conjuncts at reset. -/
theorem resetMeetsTheInvariant : Obligations.ResetMeetsTheInvariant :=
  ⟨by decide, Memory.wf_reset, nofun, .inl rfl, nofun, fun _ => nofun⟩

/-- Settles O48: every cell of the reset state is built from 0. -/
theorem resetClearsTheRegisters : Obligations.ResetClearsTheRegisters := by
  refine ⟨fun r => ?_, rfl⟩
  cases r with
  | gpr i => simp [State.reset]
  | pc | rem | cond | comp => rfl

/-! Frames of the step. -/

/-- Settles O37: the ports by the effect, the output by the two ways a step can go. -/
theorem oneEventAndOneInputAtMost : Obligations.OneEventAndOneInputAtMost := by
  intro s t stepped
  have output : t.trace = s.trace ∨ ∃ ev, t.trace = s.trace ++ [ev] ∧
      ((∃ d, ev = .diag d) ∨ (∃ f, Runs s (.output f)) ∨ Runs s (.trap 0x21)) :=
    (step_output_cases stepped).imp And.left fun ⟨ev, emitted, _, source⟩ => ⟨ev, emitted, source⟩
  refine ⟨step_cfg_eq stepped, output, ?_⟩
  obtain ⟨-, ⟨-, rfl⟩ | ⟨-, ⟨o, rfl⟩ | ⟨i, runs, executed⟩⟩⟩ := step_next stepped
  · exact ⟨.inl (s.raise_intIn _), .inl (s.raise_charIn _)⟩
  · exact ⟨.inl (State.raise_intIn _ _), .inl (State.raise_charIn _ _)⟩
  · refine ⟨(exec_effect executed).intIn_cases.imp_right ?_, (exec_effect executed).charIn_cases.imp_right ?_⟩
    · rintro ⟨⟨f, rfl⟩, taken⟩
      exact ⟨⟨f, runs⟩, taken⟩
    · rintro ⟨rfl, taken⟩
      exact ⟨runs, taken⟩

/-- Settles O38: an instruction that may not write `PC` leaves it advanced. -/
theorem pcLeavesSequenceOnlyByJumps : Obligations.PcLeavesSequenceOnlyByJumps := by
  intro s t stepped jumped
  obtain ⟨-, ⟨outside, rfl⟩ | ⟨-, ⟨o, rfl⟩ | ⟨i, runs, executed⟩⟩⟩ := step_next stepped
  · exact .inl ⟨outside, s.raise_pc _⟩
  · exact absurd (State.raise_pc _ _) jumped
  · refine .inr ⟨i, runs, ?_⟩
    by_contra notWritten
    exact jumped ((exec_effect executed).sameRegsBut .pc notWritten)

/-- Settles O40: the step's own faults write no register, and its instruction keeps COMP 0 or 1. -/
theorem compStaysBoolean : Obligations.CompStaysBoolean := by
  intro s t stepped boolean h19
  obtain ⟨-, ⟨-, rfl⟩ | ⟨-, ⟨o, rfl⟩ | ⟨i, runs, executed⟩⟩⟩ := step_next stepped
  · rwa [s.raise_comp]
  · rwa [State.raise_comp]
  · exact exec_comp_boolean executed (h19 i runs) boolean

end Sys2Proof.Machine
end

section
/-! What a step does not read (10_state.md R42, R43, R44): the events emitted so far, and, in all
instructions but the two that ask a port, the answers still to come. Both are one fact: a step commutes with a
change of the ports, and one proof over the instructions gives both. -/

namespace Sys2Proof.Machine

/-! A change of the ports. -/

/-- Other answers still to come, and events emitted before the ones of the state. -/
structure PortChange where
  ints : List IntAnswer → List IntAnswer
  chars : List Word → List Word
  earlier : List Event

/-- The state with its ports changed: no register, no byte of memory and no parameter is. -/
def State.withPorts (p : PortChange) (s : State) : State :=
  { s with intIn := p.ints s.intIn, charIn := p.chars s.charIn, trace := p.earlier ++ s.trace }

/-- An answer with its next state changed, if it has one. -/
def mapNext (g : State → State) : Result → Result
  | .next s => .next (g s)
  | .fault r => .fault r
  | .refused r => .refused r

/-- The change leaves alone the answers the instruction asks for, if it asks for any (R150, R154). -/
def PortChange.Spares (p : PortChange) (i : Instr) : Prop :=
  ((∃ f, i = .input f) → p.ints = id) ∧ (i = .trap 0x20 → p.chars = id)

/-! The operations commute with it. -/

section Operations

variable (p : PortChange) (s : State)

@[simp] theorem State.withPorts_reg (r : Reg) : (s.withPorts p).reg r = s.reg r := by
  cases r <;> rfl

@[simp] theorem State.withPorts_setReg (r : Reg) (v : Word) :
    (s.withPorts p).setReg r v = (s.setReg r v).withPorts p := by
  cases r <;> rfl

theorem State.withPorts_setFlags (r : Reg) : (s.withPorts p).setFlags r = (s.setFlags r).withPorts p := by
  rw [State.setFlags, s.withPorts_reg, s.withPorts_setReg]
  rfl

theorem State.withPorts_writeDest (d : Reg) (v : Word) :
    (s.withPorts p).writeDest d v = (s.writeDest d v).withPorts p := by
  rw [State.writeDest, s.withPorts_setReg, State.withPorts_setFlags]
  rfl

theorem State.withPorts_setComp (b : Bool) : (s.withPorts p).setComp b = (s.setComp b).withPorts p :=
  s.withPorts_setReg p .comp _

theorem State.withPorts_emit (ev : Event) : (s.withPorts p).emit ev = (s.emit ev).withPorts p := by
  simp [State.emit, State.withPorts]

theorem State.withPorts_raise (d : Diag) : (s.withPorts p).raise d = (s.raise d).withPorts p := by
  unfold State.raise
  rw [s.withPorts_emit]
  split <;> rfl

/-- A guarded continuation commutes if the check is the same and what follows it commutes. -/
theorem State.withPorts_guard {α : Type} {c : Except Diag α} {k k' : α → Result}
    (hk : ∀ a, c = .ok a → k' a = mapNext (State.withPorts p) (k a)) :
    (s.withPorts p).guard c k' = mapNext (State.withPorts p) (s.guard c k) := by
  cases c with
  | ok a => exact hk a rfl
  | error d => exact congrArg _ (s.withPorts_raise p d)

/-- The checked write, as the last thing an instruction does. -/
theorem State.withPorts_guard_storeWord (a : Nat) (v : Word) :
    (s.withPorts p).guard ((s.withPorts p).storeWord a v) .next =
      mapNext (State.withPorts p) (s.guard (s.storeWord a v) .next) := by
  rw [s.storeWord_eq, (s.withPorts p).storeWord_eq]
  by_cases inside : a + 4 ≤ s.cfg.memSize
  · rw [if_pos inside, if_pos (by exact inside)]
    rfl
  · rw [if_neg inside, if_neg (by exact inside), State.guard_error, s.withPorts_raise]
    rfl

/-- The prologue of the instructions with two register fields. -/
theorem withPorts_withTwoRegs (r1 r2 : RegField) {k k' : Reg → Reg → Result}
    (hk : ∀ d a, k' d a = mapNext (State.withPorts p) (k d a)) :
    withTwoRegs r1 r2 (s.withPorts p) k' = mapNext (State.withPorts p) (withTwoRegs r1 r2 s k) :=
  s.withPorts_guard p fun d _ => s.withPorts_guard p fun a _ => hk d a

end Operations

/-! Every instruction the change spares commutes with it. -/

section Instructions

variable {p : PortChange} (s : State)

theorem withPorts_execDiv (r1 r2 : RegField) (imm : Imm) :
    execDiv r1 r2 imm (s.withPorts p) = mapNext (State.withPorts p) (execDiv r1 r2 imm s) :=
  withPorts_withTwoRegs p s r1 r2 fun d a => by
    rw [s.withPorts_reg]
    refine s.withPorts_guard p fun n _ => ?_
    simp only [State.withPorts_setReg, State.withPorts_setFlags]
    rfl

theorem withPorts_execInput {r1 : RegField} (same : p.ints = id) :
    execInput r1 (s.withPorts p) = mapNext (State.withPorts p) (execInput r1 s) := by
  refine s.withPorts_guard p fun d _ => ?_
  have taken (rest : List IntAnswer) :
      ({ s.withPorts p with intIn := rest } : State) = ({ s with intIn := rest } : State).withPorts p := by
    simp [State.withPorts, same]
  have answers : (s.withPorts p).intIn = s.intIn := by simp [State.withPorts, same]
  rcases h : s.intIn with _ | ⟨_ | _, rest⟩ <;> simp only [State.inInt, answers, h, taken]
  · rfl
  · rw [State.withPorts_writeDest]
    rfl
  · rw [State.withPorts_raise]
    rfl

theorem withPorts_trapGetc (same : p.chars = id) :
    trapGetc (s.withPorts p) = mapNext (State.withPorts p) (trapGetc s) := by
  have taken (rest : List Word) :
      ({ s.withPorts p with charIn := rest } : State) = ({ s with charIn := rest } : State).withPorts p := by
    simp [State.withPorts, same]
  have answers : (s.withPorts p).charIn = s.charIn := by simp [State.withPorts, same]
  rcases h : s.charIn with _ | ⟨c, rest⟩ <;> simp only [trapGetc, State.inChar, answers, h, taken]
  · rfl
  · rw [State.withPorts_setReg]
    rfl

theorem withPorts_execTrap {vec : TrapVec} (same : vec = 0x20 → p.chars = id) :
    execTrap vec (s.withPorts p) = mapNext (State.withPorts p) (execTrap vec s) := by
  have halts : (vec = (s.withPorts p).cfg.trapHaltVec) = (vec = s.cfg.trapHaltVec) := rfl
  simp only [execTrap, halts]
  split
  · exact withPorts_trapGetc s (same ‹_›)
  · split
    · rw [trapOut, s.withPorts_reg, s.withPorts_emit]
      rfl
    · split
      · rfl
      · rw [trapUnknown, s.withPorts_raise]
        rfl

/-- An instruction that finds its answers as they were does the same, on the changed ports. -/
theorem withPorts_exec {i : Instr} (spared : p.Spares i) :
    exec i (s.withPorts p) = mapNext (State.withPorts p) (exec i s) := by
  cases i with
  | add r1 r2 | sub r1 r2 | mul r1 r2 | and r1 r2 | or r1 r2 | xor r1 r2 | not r1 r2 | shl r1 r2 | shr r1 r2 =>
    exact withPorts_withTwoRegs p s r1 r2 fun d a => congrArg _ (s.withPorts_writeDest p d _)
  | cmpEq r1 r2 | cmpNeq r1 r2 | cmpGt r1 r2 | cmpLt r1 r2 =>
    exact withPorts_withTwoRegs p s r1 r2 fun d a => congrArg _ (s.withPorts_setComp p _)
  | div r1 r2 imm => exact withPorts_execDiv s r1 r2 imm
  | load | lea => exact s.withPorts_guard p fun d _ => congrArg _ (s.withPorts_writeDest p d _)
  | store =>
    refine s.withPorts_guard p fun r _ => ?_
    rw [s.withPorts_reg]
    exact s.withPorts_guard_storeWord p _ _
  | ldi =>
    exact s.withPorts_guard p fun d _ => s.withPorts_guard p fun ptr _ => s.withPorts_guard p fun v _ =>
      congrArg _ (s.withPorts_writeDest p d v)
  | sti =>
    refine s.withPorts_guard p fun r _ => s.withPorts_guard p fun ptr _ => ?_
    rw [s.withPorts_reg]
    exact s.withPorts_guard_storeWord p _ _
  | jmpAbs | jmpRel => exact congrArg _ (s.withPorts_setReg p .pc _)
  | input => exact withPorts_execInput s (spared.1 ⟨_, rfl⟩)
  | output =>
    refine s.withPorts_guard p fun r _ => ?_
    rw [s.withPorts_reg, s.withPorts_emit]
    rfl
  | trap vec => exact withPorts_execTrap s fun getc => spared.2 (congrArg _ getc)
  | halt => rfl

/-- The step fetches and dispatches without the ports, so it commutes as its instruction does. -/
theorem withPorts_step (spared : ∀ i, Runs s i → p.Spares i) :
    step (s.withPorts p) = mapNext (State.withPorts p) (step s) := by
  have runningSame : (s.withPorts p).running = s.running := rfl
  unfold step
  rw [runningSame]
  split
  · refine s.withPorts_guard p fun iw fetched => ?_
    refine s.advancePc.withPorts_guard p fun i dispatched => ?_
    exact withPorts_exec s.advancePc (spared i ⟨iw, fetched, State.dispatch_ok_iff.mp dispatched⟩)
  · rfl

end Instructions

/-- Settles O51: events emitted earlier are a change of the ports that leaves every answer alone. -/
theorem outputIsNeverRead : Obligations.OutputIsNeverRead := by
  intro s t earlier stepped
  have commutes := withPorts_step (p := ⟨id, id, earlier⟩) s fun _ _ => ⟨fun _ => rfl, fun _ => rfl⟩
  rw [stepped] at commutes
  exact commutes

/-- Settles O52: other answers are a change of the ports that spares an instruction that asks for none. -/
theorem pendingInputMattersToInputOnly : Obligations.PendingInputMattersToInputOnly := by
  intro s t ints chars stepped noInput noGetc
  have commutes := withPorts_step (p := ⟨fun _ => ints, fun _ => chars, []⟩) s fun i runs =>
    ⟨fun ⟨f, input⟩ => absurd (input ▸ runs) (noInput f), fun getc => absurd (getc ▸ runs) noGetc⟩
  rw [stepped] at commutes
  exact commutes

end Sys2Proof.Machine
end

section
/-! What each instruction leaves (40_arithmetic.md to 45_io_trap.md): its equation on fields that name cells, and
from it the result and the frame. -/

namespace Sys2Proof.Machine

/-! Results of 32 bits (R9). -/

theorem toNat_wrap32_natCast (n : Nat) : (wrap32 n).toNat = n % 2 ^ 32 := by
  rw [wrap32, BitVec.ofInt_natCast, BitVec.toNat_ofNat]

theorem toNat_wrap32 (n : Int) : ((wrap32 n).toNat : Int) = n % 2 ^ 32 := by
  rw [wrap32, BitVec.toNat_ofInt]
  exact Int.toNat_of_nonneg (Int.emod_nonneg n (by decide))

theorem toInt_wrap32 {n : Int} (low : -2 ^ 31 ≤ n) (high : n < 2 ^ 31) : (wrap32 n).toInt = n :=
  BitVec.toInt_ofInt_eq_self (by decide) low high

/-! Instructions on two fields that name cells. -/

section TwoFields

variable (s : State) {r1 r2 : RegField} (imm : Imm) {d a : Reg}
  (h1 : regOf r1 = some d) (h2 : regOf r2 = some a)
include h1 h2

theorem exec_add_eq :
    exec (.add r1 r2 imm) s = .next (s.writeDest d (wrap32 ((s.reg a).toNat + imm.toNat))) :=
  writeFromSrc_of_some (fun x => wrap32 (x.toNat + imm.toNat)) s h1 h2

theorem exec_sub_eq :
    exec (.sub r1 r2 imm) s = .next (s.writeDest d (wrap32 ((s.reg a).toNat - imm.toNat))) :=
  writeFromSrc_of_some (fun x => wrap32 (x.toNat - imm.toNat)) s h1 h2

theorem exec_mul_eq :
    exec (.mul r1 r2 imm) s = .next (s.writeDest d (wrap32 ((s.reg a).toNat * imm.toNat))) :=
  writeFromSrc_of_some (fun x => wrap32 (x.toNat * imm.toNat)) s h1 h2

theorem exec_and_eq : exec (.and r1 r2 imm) s = .next (s.writeDest d (s.reg a &&& zext32 imm)) :=
  writeFromSrc_of_some (fun x => x &&& zext32 imm) s h1 h2

theorem exec_or_eq : exec (.or r1 r2 imm) s = .next (s.writeDest d (s.reg a ||| zext32 imm)) :=
  writeFromSrc_of_some (fun x => x ||| zext32 imm) s h1 h2

theorem exec_xor_eq : exec (.xor r1 r2 imm) s = .next (s.writeDest d (s.reg a ^^^ zext32 imm)) :=
  writeFromSrc_of_some (fun x => x ^^^ zext32 imm) s h1 h2

theorem exec_not_eq : exec (.not r1 r2) s = .next (s.writeDest d (s.reg a ^^^ 0xFFFFFFFF)) :=
  writeFromSrc_of_some (fun x => x ^^^ 0xFFFFFFFF) s h1 h2

theorem exec_shl_eq : exec (.shl r1 r2 imm) s = .next (s.writeDest d (s.reg a <<< imm.toNat)) :=
  writeFromSrc_of_some (fun x => x <<< imm.toNat) s h1 h2

theorem exec_shr_eq : exec (.shr r1 r2 imm) s = .next (s.writeDest d (s.reg a >>> imm.toNat)) :=
  writeFromSrc_of_some (fun x => x >>> imm.toNat) s h1 h2

/-- DIV past its check: quotient, remainder, flag (R103). -/
theorem exec_div_eq (nonzero : imm.toNat ≠ 0) :
    exec (.div r1 r2 imm) s =
      .next (((s.setReg d (wrap32 (floorDiv (s.reg a).toInt imm.toNat))).setReg .rem
        (wrap32 (floorMod (s.reg a).toInt imm.toNat))).setFlags d) := by
  calc exec (.div r1 r2 imm) s
    _ = s.guard (if immz imm = 0 then .error .divideByZero else .ok (signed (s.reg a))) _ :=
      withTwoRegs_of_some s _ h1 h2
    _ = _ := by rw [if_neg (by exact nonzero), State.guard_ok]; rfl

/-- A compare of a relation, and what it leaves in COMP. -/
theorem exists_writesOnly_of_compareRegs {rel : Word → Word → Bool} {p : Prop} [Decidable p]
    (h : rel (s.reg d) (s.reg a) = true ↔ p) :
    ∃ t, compareRegs rel r1 r2 s = .next t ∧ WritesOnly s t [.comp] ∧ t.comp.toNat = if p then 1 else 0 := by
  refine ⟨_, compareRegs_of_some rel s h1 h2, s.writesOnly_setComp _, ?_⟩
  have comp : ∀ b, (s.setComp b).comp = if b then 1 else 0 := s.reg_setComp_comp
  rw [comp]
  by_cases hp : p
  · rw [if_pos hp, if_pos (h.mpr hp)]
    rfl
  · rw [if_neg hp, if_neg (mt h.mp hp)]
    rfl

end TwoFields

/-- Settles O13: each result is a `wrap32`, which is the number modulo 2^32. -/
theorem addSubMulWriteTheWrappedResult : Obligations.AddSubMulWriteTheWrappedResult :=
  fun s _ _ imm d _ h1 h2 =>
  ⟨⟨_, _, exec_add_eq s imm h1 h2, s.destGets_writeDest d _, toNat_wrap32_natCast _⟩,
    ⟨_, _, exec_sub_eq s imm h1 h2, s.destGets_writeDest d _, toNat_wrap32 _⟩,
    ⟨_, _, exec_mul_eq s imm h1 h2, s.destGets_writeDest d _, toNat_wrap32_natCast _⟩⟩

/-- An immediate has no bit from 16 up, so its extension has its bits (R11, R80). -/
theorem getLsbD_zext32 (imm : Imm) {k : Nat} (h : k < 32) : (zext32 imm).getLsbD k = imm.getLsbD k := by
  simp [zext32, h]

/-- Settles O16: the word operations act bit by bit, and the mask of NOT has every bit set. -/
theorem logicActsBitByBit : Obligations.LogicActsBitByBit := by
  intro s r1 r2 imm d a h1 h2
  refine ⟨⟨_, _, exec_and_eq s imm h1 h2, s.destGets_writeDest d _, fun k hk => ?_⟩,
    ⟨_, _, exec_or_eq s imm h1 h2, s.destGets_writeDest d _, fun k hk => ?_⟩,
    ⟨_, _, exec_xor_eq s imm h1 h2, s.destGets_writeDest d _, fun k hk => ?_⟩,
    ⟨_, _, exec_not_eq s h1 h2, s.destGets_writeDest d _, fun k hk => ?_⟩⟩
  · rw [BitVec.getLsbD_and, getLsbD_zext32 imm hk]
  · rw [BitVec.getLsbD_or, getLsbD_zext32 imm hk]
  · rw [BitVec.getLsbD_xor, getLsbD_zext32 imm hk]
  · have ones : (0xFFFFFFFF : Word) = BitVec.allOnes 32 := rfl
    rw [ones, BitVec.xor_allOnes, BitVec.getLsbD_not, decide_eq_true hk, Bool.true_and]

/-- Settles O17: the amount is the whole immediate. -/
theorem shiftsAreLogicalAndUnmasked : Obligations.ShiftsAreLogicalAndUnmasked := by
  intro s r1 r2 imm d a h1 h2
  refine ⟨⟨_, _, exec_shl_eq s imm h1 h2, s.destGets_writeDest d _, ?_⟩,
    ⟨_, _, exec_shr_eq s imm h1 h2, s.destGets_writeDest d _, ?_⟩⟩
  · rw [BitVec.toNat_shiftLeft, Nat.shiftLeft_eq]
  · rw [BitVec.toNat_ushiftRight, Nat.shiftRight_eq_div_pow]

/-- Settles O18: each compare is the template with its relation. -/
theorem comparesWriteCompOnly : Obligations.ComparesWriteCompOnly := by
  intro s r1 r2 a b h1 h2
  refine ⟨?eq, ?neq, ?gt, ?lt⟩
  case eq =>
    exact exists_writesOnly_of_compareRegs s h1 h2 (rel := fun x y => x == y) (by simp [BitVec.toNat_inj])
  case neq =>
    simp only [← ite_not (p := (s.reg a).toNat = _)]
    exact exists_writesOnly_of_compareRegs s h1 h2 (rel := fun x y => x != y) (by simp [BitVec.toNat_inj])
  case gt =>
    exact exists_writesOnly_of_compareRegs s h1 h2 (rel := fun x y => decide (signed x > signed y))
      decide_eq_true_iff
  case lt =>
    exact exists_writesOnly_of_compareRegs s h1 h2 (rel := fun x y => decide (signed x < signed y))
      decide_eq_true_iff

/-! Division (R9, R103). -/

theorem floorDiv_natCast (a : Int) (n : Nat) : floorDiv a n = a / n :=
  Int.fdiv_eq_ediv_of_nonneg a (Int.natCast_nonneg n)

theorem floorMod_natCast (a : Int) (n : Nat) : floorMod a n = a % n := by
  rw [floorMod, floorDiv_natCast, Int.emod_def, Int.mul_comm]

/-- A quotient by a positive divisor is no farther from 0 than its dividend. -/
theorem floorDiv_mem_range {a : Int} {n : Nat} (positive : 0 < n) (low : -2 ^ 31 ≤ a) (high : a < 2 ^ 31) :
    -2 ^ 31 ≤ floorDiv a n ∧ floorDiv a n < 2 ^ 31 := by
  have positive' : (0 : Int) < n := by omega
  rw [floorDiv_natCast, Int.le_ediv_iff_mul_le positive', Int.ediv_lt_iff_lt_mul positive']
  omega

/-- What DIV leaves in its destination, unless a later write of its own goes there. -/
theorem State.reg_divide_dest (s : State) {d : Reg} (q m : Word) (notRem : d ≠ .rem) (notCond : d ≠ .cond) :
    (((s.setReg d q).setReg .rem m).setFlags d).reg d = q := by
  rw [State.reg_setFlags_ne _ _ notCond, State.reg_setReg_ne _ _ notRem, State.reg_setReg_same]

theorem State.rem_divide (s : State) (d : Reg) (q m : Word) :
    (((s.setReg d q).setReg .rem m).setFlags d).rem = m := rfl

/-- DIV's flag is of its destination as the write of REM left it (R35). -/
theorem State.condShows_divide (s : State) (d : Reg) (q m : Word) :
    CondShows (((s.setReg d q).setReg .rem m).setFlags d) (if d = .rem then m.toInt else q.toInt) := by
  have shows := ((s.setReg d q).setReg .rem m).condShows_setFlags d
  rwa [State.reg_setReg, State.reg_setReg_same, apply_ite BitVec.toInt] at shows

/-- Settles O14: both results of the division fit their cells, so the cells hold them unwrapped. -/
theorem divWritesFloorQuotientAndRemainder : Obligations.DivWritesFloorQuotientAndRemainder := by
  intro s r1 r2 imm d a h1 h2 nonzero
  have nonzero' : imm.toNat ≠ 0 := fun zero => nonzero (BitVec.eq_of_toNat_eq zero)
  have small : imm.toNat < 2 ^ 16 := imm.isLt
  have quotient := floorDiv_mem_range (n := imm.toNat) (by omega) (s.reg a).le_toInt BitVec.toInt_lt
  have identity : (s.reg a).toInt =
      floorDiv (s.reg a).toInt imm.toNat * imm.toNat + floorMod (s.reg a).toInt imm.toNat := by
    rw [floorMod]; omega
  have nonneg : 0 ≤ floorMod (s.reg a).toInt imm.toNat := by
    rw [floorMod_natCast]; exact Int.emod_nonneg _ (by omega)
  have below : floorMod (s.reg a).toInt imm.toNat < imm.toNat := by
    rw [floorMod_natCast]; exact Int.emod_lt_of_pos _ (by omega)
  have executed := exec_div_eq s imm h1 h2 nonzero'
  generalize floorDiv (s.reg a).toInt imm.toNat = q at *
  generalize floorMod (s.reg a).toInt imm.toNat = m at *
  have hq : (wrap32 q).toInt = q := toInt_wrap32 quotient.1 quotient.2
  have hm : (wrap32 m).toInt = m := toInt_wrap32 (by omega) (by omega)
  have hm' : ((wrap32 m).toNat : Int) = m := by rw [toNat_wrap32, Int.emod_eq_of_lt nonneg (by omega)]
  refine ⟨_, q, m, executed, identity, nonneg, below, fun notRem notCond => ?dest, ?rem, ?flag,
    s.writesOnly_divide d _ _⟩
  case dest => rw [s.reg_divide_dest _ _ notRem notCond, hq]
  case rem => rw [s.rem_divide, hm']
  case flag => simpa only [hq, hm] using s.condShows_divide d (wrap32 q) (wrap32 m)

/-! Instructions on one field that names a cell. -/

section OneField

variable (s : State) {r1 : RegField} (imm : Imm) {d : Reg} (named : regOf r1 = some d)
include named

theorem exec_load_eq : exec (.load r1 imm) s = .next (s.writeDest d (zext32 imm)) :=
  guard_checkReg_of_some s _ named

theorem exec_lea_eq : exec (.lea r1 imm) s = .next (s.writeDest d (wrap32 (s.pc.toNat + imm.toNat))) :=
  guard_checkReg_of_some s _ named

theorem exec_output_eq : exec (.output r1) s = .next (s.emit (.outInt r1 (s.reg d))) :=
  guard_checkReg_of_some s _ named

/-- STORE in bounds (R131). -/
theorem exec_store_inside (inside : absoluteAddr imm + 4 ≤ s.cfg.memSize) :
    exec (.store r1 imm) s =
      .next { s with mem := s.mem.storeLE (absoluteAddr imm) 4 (s.reg d).toNat } := by
  calc exec (.store r1 imm) s
    _ = s.guard (s.storeWord (absoluteAddr imm) (s.reg d)) .next := guard_checkReg_of_some s _ named
    _ = _ := by rw [s.storeWord_eq, if_pos inside, State.guard_ok]

variable {s imm} (cell : pointerAddr s imm + 4 ≤ s.cfg.memSize)
  (target : s.mem.loadLE (pointerAddr s imm) 4 + 4 ≤ s.cfg.memSize)
include cell target

/-- LDI with both accesses in bounds (R132). -/
theorem exec_ldi_inside :
    exec (.ldi r1 imm) s =
      .next (s.writeDest d (BitVec.ofNat 32 (s.mem.loadLE (s.mem.loadLE (pointerAddr s imm) 4) 4))) := by
  calc exec (.ldi r1 imm) s
    _ = s.guard (s.loadWord (pointerAddr s imm)) _ := guard_checkReg_of_some s _ named
    _ = s.guard (s.loadWord (BitVec.ofNat 32 (s.mem.loadLE (pointerAddr s imm) 4)).toNat) _ :=
      guard_loadWord_of_le _ cell
    _ = _ := by rw [Memory.toNat_word_loadLE, guard_loadWord_of_le _ target]

/-- STI with both accesses in bounds (R133). -/
theorem exec_sti_inside :
    exec (.sti r1 imm) s =
      .next { s with mem := s.mem.storeLE (s.mem.loadLE (pointerAddr s imm) 4) 4 (s.reg d).toNat } := by
  calc exec (.sti r1 imm) s
    _ = s.guard (s.loadWord (pointerAddr s imm)) _ := guard_checkReg_of_some s _ named
    _ = s.guard (s.storeWord (BitVec.ofNat 32 (s.mem.loadLE (pointerAddr s imm) 4)).toNat (s.reg d)) .next :=
      guard_loadWord_of_le _ cell
    _ = _ := by rw [Memory.toNat_word_loadLE, s.storeWord_eq, if_pos target, State.guard_ok]

end OneField

/-- Settles O19: both are a `writeDest`, and neither equation has an access in it. -/
theorem loadAndLeaWriteTheirOperand : Obligations.LoadAndLeaWriteTheirOperand := fun s _ imm d named =>
  ⟨⟨_, _, exec_load_eq s imm named, s.destGets_writeDest d _, toNat_zext32 (by decide) imm⟩,
    ⟨_, _, exec_lea_eq s imm named, s.destGets_writeDest d _, toNat_wrap32_natCast _⟩⟩

/-- Settles O20: in bounds STORE is `storeLE` on memory, with that operation's frame. -/
theorem storeWritesFourBytes : Obligations.StoreWritesFourBytes := fun s _ imm _ named inside =>
  ⟨_, exec_store_inside s imm named inside, s.storesOnly_storeLE _ 4 _⟩

/-- Settles O21: both reads fit, and a word read is its number. -/
theorem ldiLoadsThroughThePointer : Obligations.LdiLoadsThroughThePointer := fun s _ _ d named cell target =>
  ⟨_, _, exec_ldi_inside named cell target, s.destGets_writeDest d _, s.mem.toNat_word_loadLE _⟩

/-- Settles O22: both accesses fit, and the second is `storeLE` on memory. -/
theorem stiStoresThroughThePointer : Obligations.StiStoresThroughThePointer := fun s _ _ _ named cell target =>
  ⟨_, exec_sti_inside named cell target, s.storesOnly_storeLE _ 4 _⟩

/-- Settles O29: an emit has `emit_frame`. -/
theorem outputEmitsTheRegister : Obligations.OutputEmitsTheRegister := fun s _ _ named =>
  ⟨_, exec_output_eq s named, s.emit_trace _, s.emit_frame _⟩

/-! Instructions that take an answer. -/

theorem exec_input_value {s : State} {r1 : RegField} {d : Reg} {v : Word} {rest : List IntAnswer}
    (named : regOf r1 = some d) (next : s.intIn = .value v :: rest) :
    exec (.input r1) s = .next (({ s with intIn := rest } : State).writeDest d v) := by
  simp [exec, execInput, guard_checkReg_of_some s _ named, State.inInt, next]

theorem exec_input_malformed {s : State} {r1 : RegField} {d : Reg} {rest : List IntAnswer}
    (named : regOf r1 = some d) (next : s.intIn = .malformed :: rest) :
    exec (.input r1) s = .next (({ s with intIn := rest } : State).raise .malformedInput) := by
  simp [exec, execInput, guard_checkReg_of_some s _ named, State.inInt, next]

theorem exec_trap_getc {s : State} {c : Word} {rest : List Word} (next : s.charIn = c :: rest) :
    exec (.trap 0x20) s = .next (({ s with charIn := rest } : State).setReg (.gpr 0) (charOf s.cfg c)) := by
  simp [exec, execTrap, trapGetcVec, trapGetc, State.inChar, next]

/-- Settles O26: with the answer taken, INPUT is a `writeDest`. -/
theorem inputWritesTheAnswer : Obligations.InputWritesTheAnswer := fun s _ d v rest named next =>
  ⟨_, exec_input_value named next, State.writeDest_intIn _ d v,
    State.destGets_writeDest { s with intIn := rest } d v⟩

/-- Settles O27: with the answer taken, INPUT is a raised MalformedInput. -/
theorem malformedInputHalts : Obligations.MalformedInputHalts := fun s _ _ rest named next =>
  ⟨_, exec_input_malformed named next, State.raise_intIn _ _,
    State.faultsWith_raise { s with intIn := rest } rfl⟩

/-- A port delivers no more than its width (R44), and a character in range whole. -/
theorem toNat_charOf_lt (c : Config) (v : Word) : (charOf c v).toNat < 2 ^ c.charInBits := by
  rw [charOf, BitVec.toNat_ofNat]
  exact (Nat.mod_le _ _).trans_lt (Nat.mod_lt _ (Nat.two_pow_pos _))

theorem charOf_of_lt {c : Config} {v : Word} (h : v.toNat < 2 ^ c.charInBits) : charOf c v = v := by
  rw [charOf, Nat.mod_eq_of_lt h, BitVec.ofNat_toNat, BitVec.setWidth_eq]

/-- Settles O30: the trap is a plain write of R0, so its frame is `writesOnly_setReg`'s. -/
theorem characterInputOverwritesR0 : Obligations.CharacterInputOverwritesR0 := by
  intro s c rest next
  obtain ⟨regs, mem, running, cfg, ints, chars, trace⟩ :=
    State.writesOnly_setReg { s with charIn := rest } (.gpr 0) (charOf s.cfg c)
  refine ⟨_, exec_trap_getc next, chars, ?_, fun inRange => ?_,
    fun r other => (regs r other).trans (s.reg_withCharIn rest r), mem, running, cfg, ints, trace⟩
  · rw [State.reg_setReg_same]
    exact toNat_charOf_lt s.cfg c
  · rw [State.reg_setReg_same, charOf_of_lt inRange]

/-! Instructions without a register field. -/

/-- Settles O24: both jumps are a write of `PC`, COND not updated. -/
theorem jumpsWritePcOnly : Obligations.JumpsWritePcOnly := fun s imm =>
  ⟨⟨_, rfl, s.writesOnly_setReg .pc (zext32 imm), toNat_zext32 (by decide) imm⟩,
    ⟨_, rfl, s.writesOnly_setReg .pc (wrap32 (s.pc.toNat + imm.toNat)), toNat_wrap32_natCast _⟩⟩

/-- The halt trap, whose vector is neither of the two fixed ones (R7, R157). -/
theorem exec_trap_halt {s : State} (notGetc : s.cfg.trapHaltVec ≠ 0x20) (notOut : s.cfg.trapHaltVec ≠ 0x21) :
    exec (.trap s.cfg.trapHaltVec) s = .next s.stop := by
  have handler : execTrap s.cfg.trapHaltVec s = trapHalt s := by
    rw [execTrap, if_neg (by exact notGetc), if_neg (by exact notOut), if_pos rfl]
  exact handler

/-- Settles O25: both are `stop`, which clears `running` and nothing else. -/
theorem haltAndHaltTrapClearRunning : Obligations.HaltAndHaltTrapClearRunning := by
  intro s i hi
  have stops : exec i s = .next s.stop := by
    rcases hi with rfl | ⟨rfl, notGetc, notOut⟩
    · rfl
    · exact exec_trap_halt notGetc notOut
  exact ⟨_, stops, s.stop_running, fun r _ => s.stop_reg r, fun _ => rfl, rfl, rfl, rfl, rfl⟩

/-! Every instruction's checks. -/

/-- A field names no cell exactly when it is 20 or more (R20, R23). -/
theorem regOf_eq_none_iff (f : RegField) : regOf f = none ↔ 20 ≤ f.toNat := by
  revert f; decide

/-- The check of the only field, where it fails. -/
theorem guard_checkReg_of_bad {r1 f : RegField} (s : State) (k : Reg → Result)
    (first : [r1].find? (fun g => decide (20 ≤ g.toNat)) = some f) :
    s.guard (checkReg r1) k = .next (s.raise (.invalidRegister f)) := by
  obtain ⟨bad, rfl⟩ : 20 ≤ r1.toNat ∧ r1 = f := by simpa [List.find?_cons_eq_some] using first
  rw [checkReg_of_none ((regOf_eq_none_iff r1).mpr bad), State.guard_error]

/-- The checks of the two fields, at the first that fails: `r1` before `r2` (R91, R180). -/
theorem withTwoRegs_of_bad {r1 r2 f : RegField} (s : State) (k : Reg → Reg → Result)
    (first : [r1, r2].find? (fun g => decide (20 ≤ g.toNat)) = some f) :
    withTwoRegs r1 r2 s k = .next (s.raise (.invalidRegister f)) := by
  rcases checkReg_cases r1 with ⟨d, named, -⟩ | ⟨bad, -⟩
  · have good : ¬ 20 ≤ r1.toNat := by rw [← regOf_eq_none_iff, named]; nofun
    rw [List.find?_cons_of_neg (by simpa using good)] at first
    exact (guard_checkReg_of_some s _ named).trans (guard_checkReg_of_bad s _ first)
  · rw [List.find?_cons_of_pos (by simpa using (regOf_eq_none_iff r1).mp bad)] at first
    obtain rfl : r1 = f := Option.some.inj first
    rw [withTwoRegs, checkReg_of_none bad, State.guard_error]

/-- Every instruction checks its fields first, so the first bad one is all it comes to (R91, R178). -/
theorem exec_of_bad {i : Instr} {f : RegField} (s : State)
    (first : (usedRegs i).find? (fun g => decide (20 ≤ g.toNat)) = some f) :
    exec i s = .next (s.raise (.invalidRegister f)) := by
  cases i with
  | add | sub | mul | div | and | or | xor | not | shl | shr | cmpEq | cmpNeq | cmpGt | cmpLt =>
    exact withTwoRegs_of_bad s _ first
  | load | store | ldi | sti | lea | input | output => exact guard_checkReg_of_bad s _ first
  | jmpAbs | jmpRel | trap | halt => cases first

/-- Settles O33: the instruction is the raised InvalidRegister. -/
theorem invalidRegisterIsRaisedFirst : Obligations.InvalidRegisterIsRaisedFirst := fun _ s _ first =>
  exists_faultsWith_of_raise rfl (exec_of_bad s first)

/-- Settles O34: the two lemmas of the wait for input. -/
theorem everyInstructionCompletesUnlessItWaits : Obligations.EveryInstructionCompletesUnlessItWaits :=
  fun _ _ => ⟨exec_completes, exec_of_waits⟩

end Sys2Proof.Machine
end

section
/-! Fetching what was stored (20_memory.md R62; 30_encoding.md R90): a word stored at `PC` is the word the next
fetch gives, and the instruction it decodes to is the one the step runs. -/

namespace Sys2Proof.Machine

/-! A step that fetches, and a machine that has none. -/

/-- Settles O7: the word at `PC` is fetched, and its instruction is dispatched. -/
theorem stepRunsTheDecodedInstruction : Obligations.StepRunsTheDecodedInstruction :=
  fun s _ running inside decoded =>
    ⟨step_of_runs running ⟨_, State.fetch_of_le inside, decoded⟩, s.advancePc_pc, s.writesOnly_advancePc⟩

theorem step_of_not_running {s : State} (stopped : s.running = false) : step s = .fault .halted := by
  simp [step, stopped]

/-- Settles O10: `step` asks `running` before anything else. -/
theorem haltedMachineHasNoStep : Obligations.HaltedMachineHasNoStep := fun _ => step_of_not_running

/-- Settles O11: an executor holds a state that has no step. -/
theorem endedRunNoLongerChanges : Obligations.EndedRunNoLongerChanges := fun _ k stopped =>
  runFor_of_fault (step_of_not_running stopped) k

/-! A word stored where the machine fetches. -/

/-- A word stored at `PC` is fetched as it was. -/
theorem State.fetch_storeLE_pc {s : State} (w : Word) (inside : s.pc.toNat + 4 ≤ s.cfg.memSize) :
    ({ s with mem := s.mem.storeLE s.pc.toNat 4 w.toNat } : State).fetch = .ok w := by
  have whole : w.toNat % 256 ^ 4 = w.toNat := Nat.mod_eq_of_lt w.isLt
  rw [State.fetch_of_le (by exact inside), Memory.loadLE_storeLE, whole, BitVec.ofNat_toNat,
    BitVec.setWidth_eq]

theorem State.withFetchWord_eq {s : State} (w : Word) (inside : s.pc.toNat + 4 ≤ s.cfg.memSize) :
    s.withFetchWord 32 w.toNat = { s with mem := s.mem.storeLE s.pc.toNat 4 w.toNat } := by
  have whole : w.toNat % 2 ^ 32 = w.toNat := Nat.mod_eq_of_lt w.isLt
  rw [State.withFetchWord, whole, BitVec.ofNat_toNat, BitVec.setWidth_eq, State.placeWord, s.storeWord_eq,
    if_pos inside]

/-- Settles O12: placing the word is storing it at `PC`, so the step fetches and dispatches it. -/
theorem placedWordIsTheNextInstruction : Obligations.PlacedWordIsTheNextInstruction := by
  intro s w i running inside decoded
  rw [s.withFetchWord_eq w inside]
  exact step_of_runs running ⟨w, State.fetch_storeLE_pc w inside, decoded⟩

/-- An instruction after which the machine runs is no raised fatal fault. -/
theorem ne_next_raise_of_running {s t : State} {answer : Result} {d : Diag} (executed : answer = .next t)
    (running : t.running = true) (fatal : d.fatal = true) : answer ≠ .next (s.raise d) := by
  intro raised
  obtain rfl : s.raise d = t := Host.Outcome.next.inj (raised.symm.trans executed)
  simp [fatal] at running

/-- A STORE or STI after which the machine runs did its store, in bounds (R131, R133, R174). -/
theorem exec_store_or_sti_running {i : Instr} {s t : State} {r1 : RegField} {imm : Imm} {r : Reg} {a : Nat}
    (hi : i = .store r1 imm ∨ i = .sti r1 imm) (named : regOf r1 = some r) (executed : exec i s = .next t)
    (running : t.running = true) (storesAt : storeAddr i s = some a) :
    a + 4 ≤ s.cfg.memSize ∧ t = { s with mem := s.mem.storeLE a 4 (s.reg r).toNat } := by
  have noFault {d : Diag} (fatal : d.fatal = true) : exec i s ≠ .next (s.raise d) :=
    ne_next_raise_of_running executed running fatal
  rcases hi with rfl | rfl
  · obtain rfl : absoluteAddr imm = a := Option.some.inj storesAt
    have inside : absoluteAddr imm + 4 ≤ s.cfg.memSize := by
      by_contra outside
      exact noFault rfl (exec_store_outside named (Nat.lt_of_not_le outside))
    exact ⟨inside, Host.Outcome.next.inj (executed.symm.trans (exec_store_inside s imm named inside))⟩
  · obtain rfl : s.mem.loadLE (pointerAddr s imm) 4 = a := Option.some.inj storesAt
    have cell : pointerAddr s imm + 4 ≤ s.cfg.memSize := by
      by_contra outside
      exact noFault rfl (exec_sti_cell_outside named (Nat.lt_of_not_le outside))
    have target : s.mem.loadLE (pointerAddr s imm) 4 + 4 ≤ s.cfg.memSize := by
      by_contra outside
      exact noFault rfl (exec_sti_target_outside named cell (Nat.lt_of_not_le outside))
    exact ⟨target, Host.Outcome.next.inj (executed.symm.trans (exec_sti_inside named cell target))⟩

/-- Settles O41: the store was done at `PC`, which it does not change. -/
theorem storedInstructionIsFetchedNext : Obligations.StoredInstructionIsFetchedNext := by
  intro i s t r1 imm r hi named executed running _ storesAtPc
  obtain ⟨inside, rfl⟩ := exec_store_or_sti_running hi named executed running storesAtPc
  exact State.fetch_storeLE_pc (s.reg r) inside

end Sys2Proof.Machine
end
